-- ==== Sys2Proof/Word.lean ====
section
/-! DEFINITION. The two word types of the engine (00_scope.md R9; 10_state.md R20, R24). -/

namespace Sys2Proof

/-- An unsigned 32-bit word; bit 31 is the most significant (R9). -/
abbrev Word := BitVec 32

/-- An unsigned byte; bit 7 is the most significant (R9, R72). -/
abbrev Byte := BitVec 8

end Sys2Proof
end

