-- ==== Sys2Proof/Config.lean ====
section
/-! DEFINITION. The fixed parameters of the engine (00_scope.md R7) and the free values: what the spec
calls unspecified after a command that goes on. A free value is an opaque constant without a body; nothing can
be proved of what it is. -/

namespace Sys2Proof.Config

/-- `BLOCK_LENGTH`: bytes of MessageBuffer and of HmacKeyBuffer, and the long-key threshold (R7). -/
def blockLength : Nat := 64

/-- `HASH_LENGTH`: bytes of a digest (R7). -/
def hashLength : Nat := 20

/-- `ROUNDS` per compression (R7). -/
def rounds : Nat := 80

/-- `K0`, rounds 0 to 19 (R7). -/
def k0 : Word := 0x5A827999

/-- `K1`, rounds 20 to 39 (R7). -/
def k1 : Word := 0x6ED9EBA1

/-- `K2`, rounds 40 to 59 (R7). -/
def k2 : Word := 0x8F1BBCDC

/-- `K3`, rounds 60 to 79 (R7). -/
def k3 : Word := 0xCA62C1D6

/-- `IV[0..4]`, HashState after INIT (R7, R140). PRESUMED: the source does not print the five values; the spec
takes them from general knowledge and confirms them by the source's known answers (log entry 8; unsafe). -/
def iv : Vector Word 5 := #v[0x67452301, 0xEFCDAB89, 0x98BADCFE, 0x10325476, 0xC3D2E1F0]

/-- `IPAD`, the HMAC inner pad byte (R7). -/
def ipad : Byte := 0x36

/-- `OPAD`, the HMAC outer pad byte (R7). -/
def opad : Byte := 0x5C

/-- `PAD_MARK`, the first padding byte (R7, R116). -/
def padMark : Byte := 0x80

/-- `PAD_LEN_AT`, the buffer offset at which the length field starts (R7, R116). -/
def padLenAt : BitVec 6 := 56

/-- `KEYLEN_MAX`, the longest secret the encoding carries (R7, R78). -/
def keyLenMax : Nat := 65535

/-- MessageBuffer after a HASHBLOCK: unspecified (R21, R112; U5). Free value, applied to the draw counter and to the
HashState and the block that were compressed, so that it may depend on a key (R230; log entry 2; safe). -/
opaque freeMessageBuffer : Nat → Vector Word 5 → Vector Word 16 → Vector Word 16

/-- HashState after a FINALIZE: unspecified (R121; U5). Free value, applied to the draw counter and to the HashState
and the MessageBuffer after the padding, so that it may depend on a key (R230; log entry 2; safe). -/
opaque freeHashState : Nat → Vector Word 5 → Vector Word 16 → Vector Word 5

/-- DIGEST from the start of the next command on: unspecified (R26; U5). Free value, applied to the draw counter, to
the digest that stood there and to the Hasher's storage as the command leaves it (log entry 2; safe). -/
opaque freeDigest : Nat → Vector Byte 20 → Vector Word 5 → Vector Word 16 → Vector Byte 20

end Sys2Proof.Config
end

