-- ==== Sys2Proof/Syntax.lean ====
section
/-! DEFINITION. The five commands, one constructor per row of the opcode table (30_encoding.md R70). -/

namespace Sys2Proof

/-- A decoded command (R70). The internal operations ABSORB, HASHBLOCK, PAD and FINALIZE are no commands. -/
inductive Instr where
  /-- `INIT` (R140): no operand. -/
  | init
  /-- `WRITE b` (R143): one data byte. -/
  | write (b : Byte)
  /-- `RESULT` (R146): no operand. -/
  | result
  /-- `INITHMAC s` (R160): the secret; its length `L` is the length of the list (R76). -/
  | initHmac (secret : List Byte)
  /-- `RESULTHMAC` (R165): no operand. -/
  | resultHmac
  deriving DecidableEq, Repr

end Sys2Proof
end

