-- ==== Sys2Proof/WellFormed.lean ====
section
/-! DEFINITION. Which commands the encoding can carry (30_encoding.md R76, R78). -/

namespace Sys2Proof

/-- A command is well formed when its operands fit their fields: the secret's length fits the 16-bit length field
(R78: "A secret longer than `KEYLEN_MAX = 65535` bytes cannot be sent in one `INITHMAC`"). Every data byte of WRITE
is legal (R74). -/
def Instr.wellFormed : Instr → Bool
  | .init => true
  | .write _ => true
  | .result => true
  | .initHmac secret => decide (secret.length ≤ Config.keyLenMax)
  | .resultHmac => true

end Sys2Proof
end

