-- ==== Sys2Proof/Decode.lean ====
section
/-! DEFINITION. The command encoding (30_encoding.md R71 to R83): a total decoder on any bytes, and the encoder. -/

namespace Sys2Proof

/-- Opcode of `INIT` (R73). -/
def opInit : Byte := 0x01

/-- Opcode of `WRITE` (R74). -/
def opWrite : Byte := 0x02

/-- Opcode of `RESULT` (R75). -/
def opResult : Byte := 0x03

/-- Opcode of `INITHMAC` (R76). -/
def opInitHmac : Byte := 0x04

/-- Opcode of `RESULTHMAC` (R77). -/
def opResultHmac : Byte := 0x05

/-- What the decoder finds at the head of a command stream. -/
inductive Decoded where
  /-- The stream is exhausted at a command boundary (R233). -/
  | empty
  /-- The stream ends inside a command (R83). -/
  | incomplete
  /-- The first byte is a reserved opcode, 0x00 or 0x06 to 0xFF (R81). -/
  | reserved
  /-- A whole command, and the bytes after it. -/
  | command (i : Instr) (rest : List Byte)
  deriving DecidableEq, Repr

/-- `L` from the length field, most significant byte first (R78). -/
def secretLength (hi lo : Byte) : Nat := 256 * hi.toNat + lo.toNat

/-- Format `B`, after the opcode of `WRITE`: one data byte (R72, R74). -/
def decodeWrite : List Byte → Decoded
  | [] => .incomplete
  | b :: rest => .command (.write b) rest

/-- Format `K`, after the opcode of `INITHMAC`: two length bytes, then `L` payload bytes, the first of them secret
byte 0 (R72, R76, R78, R79). -/
def decodeInitHmac : List Byte → Decoded
  | hi :: lo :: bytes =>
    if bytes.length < secretLength hi lo then .incomplete
    else .command (.initHmac (bytes.take (secretLength hi lo))) (bytes.drop (secretLength hi lo))
  | _ => .incomplete

/-- The decoder: it reads the opcode byte, which fixes how the rest of the command is told (R71, R79). It looks at
nothing but the bytes. -/
def decode : List Byte → Decoded
  | [] => .empty
  | op :: bytes =>
    if op = opInit then .command .init bytes
    else if op = opWrite then decodeWrite bytes
    else if op = opResult then .command .result bytes
    else if op = opInitHmac then decodeInitHmac bytes
    else if op = opResultHmac then .command .resultHmac bytes
    else .reserved

/-- `len_hi`, bits [15:8] of `L` (R72). -/
def lenHi (n : Nat) : Byte := BitVec.ofNat 8 (n / 256)

/-- `len_lo`, bits [7:0] of `L` (R72). -/
def lenLo (n : Nat) : Byte := BitVec.ofNat 8 n

/-- The bytes of a command, in stream order (R72 to R77). -/
def encode : Instr → List Byte
  | .init => [opInit]
  | .write b => [opWrite, b]
  | .result => [opResult]
  | .initHmac secret => opInitHmac :: lenHi secret.length :: lenLo secret.length :: secret
  | .resultHmac => [opResultHmac]

/-- The bytes of a sequence of commands: no alignment and no padding between them (R71). -/
def encodeAll (is : List Instr) : List Byte := is.flatMap encode

/-- The opcode byte of a command (R73 to R77). -/
def Instr.opcode : Instr → Byte
  | .init => opInit
  | .write _ => opWrite
  | .result => opResult
  | .initHmac _ => opInitHmac
  | .resultHmac => opResultHmac

/-- How many bytes a command takes on the stream: 1 for format `Z`, 2 for `B`, `3 + L` for `K` (R72). -/
def Instr.byteLength : Instr → Nat
  | .init => 1
  | .write _ => 2
  | .result => 1
  | .initHmac secret => 3 + secret.length
  | .resultHmac => 1

/-- How many further bytes the command begun by these bytes still needs when every one of them is zero. -/
def missingBytes : List Byte → Nat
  | [] => 0
  | op :: bytes =>
    if op = opWrite then 1 - bytes.length
    else if op = opInitHmac then
      2 + secretLength (bytes.getD 0 0) (bytes.getD 1 0) - bytes.length
    else 0

/-- The stream bytes of an opcode-table word: byte `i` is bits `8i+7..8i` (the table's numbering, first byte in the
low bits), and the operand bytes the table gives no bits are zero (log entry 18). -/
def tableBytes (nbits w : Nat) : List Byte :=
  let head := (List.range ((nbits + 7) / 8)).map fun i => BitVec.ofNat 8 (w >>> (8 * i))
  head ++ List.replicate (missingBytes head) 0

/-- The command the decoder reads from an opcode-table word. -/
def decodeTableWord (nbits w : Nat) : Option Instr :=
  match decode (tableBytes nbits w) with
  | .command i _ => some i
  | _ => none

end Sys2Proof
end

