-- ==== Sys2Proof/Machine/State.lean ====
section
/-! DEFINITION. The architectural state of the engine (10_state.md), its reset, and the reasons a step may stop. -/

namespace Sys2Proof.Machine

/-- `MODE`, the spec's ghost variable: where the engine stands in the calling contract (R27). -/
inductive Mode where
  /-- No INIT or INITHMAC since reset. -/
  | unprimed
  /-- A plain hash session is open. -/
  | hash
  /-- An HMAC session is open. -/
  | hmac
  /-- The last session was finalized; DIGEST is valid until the next command. -/
  | done
  deriving DecidableEq, Repr

/-- The engine raises no exception: the set of causes is empty (60_exceptions.md R200), so no constructor. -/
inductive Fault where
  deriving DecidableEq, Repr

/-- The closed list of reasons for which a command has no meaning (60_exceptions.md R203). Each is safe: the chip
goes on with a value the source calls undefined, and the spec gives that value no meaning (log entry 5). -/
inductive Refusal where
  /-- An instruction that has no meaning in this model yet: raised by `exec`'s refused arms only. Safe. -/
  | notModelled (mnemonic : String)
  /-- `reserved_opcode`: raised by `step` at decode, before MODE is consulted (R81, R205). Safe. -/
  | reservedOpcode
  /-- `write_unprimed`: raised by WRITE in UNPRIMED (R204). Safe. -/
  | writeUnprimed
  /-- `write_done`: raised by WRITE in DONE (R204). Safe. -/
  | writeDone
  /-- `result_unprimed`: raised by RESULT in UNPRIMED (R204). Safe. -/
  | resultUnprimed
  /-- `result_done`: raised by RESULT in DONE (R147, R204). Safe. -/
  | resultDone
  /-- `result_in_hmac`: raised by RESULT in HMAC (R171, R204). Safe. -/
  | resultInHmac
  /-- `resulthmac_unprimed`: raised by RESULTHMAC in UNPRIMED (R204). Safe. -/
  | resultHmacUnprimed
  /-- `resulthmac_in_hash`: raised by RESULTHMAC in HASH (R204). Safe. -/
  | resultHmacInHash
  /-- `resulthmac_done`: raised by RESULTHMAC in DONE (R167, R204). Safe. -/
  | resultHmacDone
  deriving DecidableEq, Repr

/-- Everything the spec gives the machine, and the model's own draw counter. -/
structure State where
  /-- HashState `H[0..4]` (R20). -/
  h : Vector Word 5
  /-- MessageBuffer `W[0..15]`, as word values (R21). -/
  w : Vector Word 16
  /-- BufferOffset `OFF`, 6 bits (R22). -/
  off : BitVec 6
  /-- ByteCount `CNT`, 32 bits, wrapping (R23). -/
  cnt : BitVec 32
  /-- HmacKeyBuffer `K[0..63]` (R24). -/
  k : Vector Byte 64
  /-- InnerHash `IH[0..19]` (R25). -/
  ih : Vector Byte 20
  /-- DIGEST `DG[0..19]` (R26). -/
  dg : Vector Byte 20
  /-- `MODE` (R27). -/
  mode : Mode
  /-- Command stream: bytes the host has sent and the engine has not consumed (R50, R71). -/
  cmd : List Byte
  /-- Response stream: bytes the engine has answered and the host has not read (R50, R80). -/
  resp : List Byte
  /-- The model's own counter that numbers the free values (log entry 2). -/
  draws : Nat
  deriving DecidableEq, Repr

/-- The machine right after reset (R36, R220): MODE is UNPRIMED and both streams are empty. The spec leaves every
register unspecified. DESIGN CHOICE: they are zero here (log entry 1; unsafe). -/
def State.reset : State where
  h := Vector.replicate 5 0
  w := Vector.replicate 16 0
  off := 0
  cnt := 0
  k := Vector.replicate 64 0
  ih := Vector.replicate 20 0
  dg := Vector.replicate 20 0
  mode := .unprimed
  cmd := []
  resp := []
  draws := 0

end Sys2Proof.Machine
end

