-- ==== Sys2Proof/Machine/Contract.lean ====
section
/-! DEFINITION. The calling contract: the transition table on MODE, one function per column (60_exceptions.md R204).
`ok m` is the MODE after the command; `error r` is the refusal and its reason (R203). -/

namespace Sys2Proof.Machine

/-- Column `INIT`: defined in every MODE. -/
def contractInit : Mode → Except Refusal Mode
  | .unprimed => .ok .hash
  | .hash => .ok .hash
  | .hmac => .ok .hash
  | .done => .ok .hash

/-- Column `WRITE b`. -/
def contractWrite : Mode → Except Refusal Mode
  | .unprimed => .error .writeUnprimed
  | .hash => .ok .hash
  | .hmac => .ok .hmac
  | .done => .error .writeDone

/-- Column `RESULT`. -/
def contractResult : Mode → Except Refusal Mode
  | .unprimed => .error .resultUnprimed
  | .hash => .ok .done
  | .hmac => .error .resultInHmac
  | .done => .error .resultDone

/-- Column `INITHMAC s`: defined in every MODE. -/
def contractInitHmac : Mode → Except Refusal Mode
  | .unprimed => .ok .hmac
  | .hash => .ok .hmac
  | .hmac => .ok .hmac
  | .done => .ok .hmac

/-- Column `RESULTHMAC`. -/
def contractResultHmac : Mode → Except Refusal Mode
  | .unprimed => .error .resultHmacUnprimed
  | .hash => .error .resultHmacInHash
  | .hmac => .ok .done
  | .done => .error .resultHmacDone

/-- A command under the contract: refused with the table's reason, or its effect with the MODE the table gives. -/
def underContract (cell : Except Refusal Mode) (effect : Mode → State) : Host.Outcome State Fault Refusal :=
  match cell with
  | .error r => .refused r
  | .ok m => .next (effect m)

end Sys2Proof.Machine
end

