-- ==== Sys2Proof/Machine/Operands.lean ====
section
/-! DEFINITION. Byte lanes, byte order and the word operators (00_scope.md R10; 20_memory.md R53 to R57). -/

namespace Sys2Proof.Machine

/-- `rotl(x, n)`, `0 < n < 32` (R10, R114). -/
def rotl (x : Word) (n : Nat) : Word := (x <<< n) ||| (x >>> (32 - n))

/-- `be32(b0, b1, b2, b3)`: the first byte is the most significant (R10, R53). -/
def be32 (b0 b1 b2 b3 : Byte) : Word :=
  (b0.setWidth 32 <<< 24) ||| (b1.setWidth 32 <<< 16) ||| (b2.setWidth 32 <<< 8) ||| b3.setWidth 32

/-- `byte_j(w) = w[31-8j : 24-8j]`, counted from the most significant end (R10). -/
def byteOf (w : Word) (j : Nat) : Byte := (w >>> (24 - 8 * j)).setWidth 8

/-- Lane `j` of a word replaced by `b`: `(w & ~(0xFF << s)) | (b << s)` with `s = 24 - 8*j` (R54). -/
def laneWrite (w : Word) (j : Nat) (b : Byte) : Word :=
  (w &&& ~~~((0xFF : Word) <<< (24 - 8 * j))) ||| (b.setWidth 32 <<< (24 - 8 * j))

/-- Digest byte `4*i + j` is `byte_j(H[i])`: `H[0]`'s most significant byte first, `H[4]`'s least significant byte
last (R56, R120). -/
def digestBytes (h : Vector Word 5) : Vector Byte 20 :=
  #v[byteOf h[0] 0, byteOf h[0] 1, byteOf h[0] 2, byteOf h[0] 3,
    byteOf h[1] 0, byteOf h[1] 1, byteOf h[1] 2, byteOf h[1] 3,
    byteOf h[2] 0, byteOf h[2] 1, byteOf h[2] 2, byteOf h[2] 3,
    byteOf h[3] 0, byteOf h[3] 1, byteOf h[3] 2, byteOf h[3] 3,
    byteOf h[4] 0, byteOf h[4] 1, byteOf h[4] 2, byteOf h[4] 3]

/-- The eight bytes of the length field, first to last, for a byte count: `00 00 00 00` and then
`L = (CNT << 3) mod 2^32` most significant byte first (R57, R117; log entry 9). -/
def lengthField (cnt : BitVec 32) : List Byte :=
  [0, 0, 0, 0, byteOf (cnt <<< 3) 0, byteOf (cnt <<< 3) 1, byteOf (cnt <<< 3) 2, byteOf (cnt <<< 3) 3]

/-- A byte sequence XORed byte by byte with one pad byte (R163, R165; R114 item 8). -/
def xorPad (pad : Byte) (bytes : List Byte) : List Byte := bytes.map (· ^^^ pad)

end Sys2Proof.Machine
end

