-- ==== Sys2Proof/Machine/Compression.lean ====
section
/-! DEFINITION. The compression function (40_compression.md R103 to R111), in the logical form of R106 and R111 and,
beside it, in the circular form in which the source stores the schedule (R107). -/

namespace Sys2Proof.Machine

/-- The working registers `a..e`: locals of HASHBLOCK (10_state.md R28). -/
structure Working where
  a : Word
  b : Word
  c : Word
  d : Word
  e : Word
  deriving DecidableEq, Repr

/-- `d ^ (b & (c ^ d))` (R108). -/
def choose (b c d : Word) : Word := d ^^^ (b &&& (c ^^^ d))

/-- `b ^ c ^ d` (R108). -/
def parity (b c d : Word) : Word := b ^^^ c ^^^ d

/-- `(b & c) | (d & (b | c))` (R108). -/
def majority (b c d : Word) : Word := (b &&& c) ||| (d &&& (b ||| c))

/-- The round function value `f_t`, by quartile of `t` (R108). -/
def roundFn (t : Nat) (b c d : Word) : Word :=
  if t ≤ 19 then choose b c d
  else if t ≤ 39 then parity b c d
  else if t ≤ 59 then majority b c d
  else parity b c d

/-- The additive constant `K_t`, by quartile of `t` (R108). -/
def roundConst (t : Nat) : Word :=
  if t ≤ 19 then Config.k0
  else if t ≤ 39 then Config.k1
  else if t ≤ 59 then Config.k2
  else Config.k3

/-- One round (R109); the constant is one of five addends (90_conflicts.md C2). -/
def roundStep (t : Nat) (wt : Word) (r : Working) : Working where
  a := roundFn t r.b r.c r.d + roundConst t + rotl r.a 5 + r.e + wt
  b := r.a
  c := rotl r.b 30
  d := r.c
  e := r.d

/-- Rounds `t, t+1, ...`, one for each schedule word of the list, in order (R105). -/
def roundsFrom (t : Nat) : List Word → Working → Working
  | [], r => r
  | wt :: ws, r => roundsFrom (t + 1) ws (roundStep t wt r)

/-- The next schedule word from the words before it, newest first:
`rotl(w_(t-3) ^ w_(t-8) ^ w_(t-14) ^ w_(t-16), 1)` (R106). -/
def nextWord (newestFirst : List Word) : Word :=
  rotl (newestFirst.getD 2 0 ^^^ newestFirst.getD 7 0 ^^^ newestFirst.getD 13 0 ^^^ newestFirst.getD 15 0) 1

/-- The schedule after `n` extensions, newest word first (R106). -/
def scheduleRev (w : Vector Word 16) : Nat → List Word
  | 0 => w.toList.reverse
  | n + 1 => nextWord (scheduleRev w n) :: scheduleRev w n

/-- The logical schedule `w_0 .. w_79` (R106). -/
def schedule (w : Vector Word 16) : List Word := (scheduleRev w 64).reverse

/-- Seeding of the working registers (R104). -/
def seed (h : Vector Word 5) : Working := ⟨h[0], h[1], h[2], h[3], h[4]⟩

/-- Add-back into HashState (R110). -/
def addBack (h : Vector Word 5) (r : Working) : Vector Word 5 :=
  #v[h[0] + r.a, h[1] + r.b, h[2] + r.c, h[3] + r.d, h[4] + r.e]

/-- `compress(H, W)` (R103, R111): 80 rounds over the seeded registers, then the add-back. -/
def compress (h : Vector Word 5) (w : Vector Word 16) : Vector Word 5 :=
  addBack h (roundsFrom 0 (schedule w) (seed h))

/-- One round over the sixteen-word circular schedule, indices modulo 16: from round 16 on the word
`w_(t-16)` in the buffer is overwritten by `w_t` (R107). -/
def circularRound (p : Vector Word 16 × Working) (t : Nat) : Vector Word 16 × Working :=
  let buf :=
    if t < 16 then p.1
    else p.1.set (t % 16)
      (rotl (p.1[(t - 3) % 16] ^^^ p.1[(t - 8) % 16] ^^^ p.1[(t - 14) % 16] ^^^ p.1[(t - 16) % 16]) 1)
  (buf, roundStep t buf[t % 16] p.2)

/-- The 80 rounds in the circular form; the first component is what the buffer then holds (R107). -/
def circularRounds (h : Vector Word 5) (w : Vector Word 16) : Vector Word 16 × Working :=
  (List.range Config.rounds).foldl circularRound (w, seed h)

/-- The compression function in the circular form (R107). -/
def compressCircular (h : Vector Word 5) (w : Vector Word 16) : Vector Word 5 :=
  addBack h (circularRounds h w).2

end Sys2Proof.Machine
end

