-- ==== Sys2Proof/Machine/Flags.lean ====
section
/-! DEFINITION. Flags: there are none. The engine has no status flag, condition code or predicate, every addition
discards its carry, and no command's behaviour depends on a flag (10_state.md R30), so this file defines nothing. -/
end

