-- ==== Sys2Proof/Machine/Ops.lean ====
section
/-! DEFINITION. The named operations over the state: reads and writes of the internal spaces (20_memory.md R51, R52),
the internal operations ABSORB, HASHBLOCK, PAD, FINALIZE (40_compression.md R101, R111, R115, R120), the state writes
of INIT and WRITE that the HMAC commands share (42_hmac_commands.md), and the two streams. The engine takes no
exception (60_exceptions.md R207), so there is no entry and no return. -/

namespace Sys2Proof.Machine

/-! ### Reads and writes of the internal spaces -/

/-- A byte of one of the four internal spaces (R50). -/
inductive Loc where
  /-- MessageBuffer lane `k` (R54). -/
  | mb (k : Fin 64)
  /-- HmacKeyBuffer byte `i`. -/
  | kb (i : Fin 64)
  /-- InnerHash byte `i`. -/
  | ihb (i : Fin 20)
  /-- DIGEST byte `i`. -/
  | dgb (i : Fin 20)
  deriving DecidableEq, Repr

/-- `MemRead(space, addr, 1)` of any internal byte; no side effect (R51, R61). MessageBuffer's byte is its lane
(R54). -/
def memRead (s : State) : Loc → Byte
  | .mb k => byteOf s.w[k.val / 4] (k.val % 4)
  | .kb i => s.k[i]
  | .ihb i => s.ih[i]
  | .dgb i => s.dg[i]

/-- `MemRead(MB, 4*i, 4) = W[i]` (R51). -/
def memReadWord (s : State) (i : Fin 16) : Word := s.w[i]

/-- `MemWrite(MB, k, 1, b)`: one lane of `W[k div 4]`, the rest unchanged (R52, R54). -/
def memWriteMb (k : BitVec 6) (b : Byte) (s : State) : State :=
  { s with w := s.w.set (k.toNat / 4) (laneWrite s.w[k.toNat / 4] (k.toNat % 4) b) }

/-- `MemWrite(KB, i, 1, b)` (R52). -/
def memWriteKb (i : Nat) (b : Byte) (s : State) : State := { s with k := s.k.setIfInBounds i b }

/-- `MemWrite(IHB, i, 1, b)` (R52). -/
def memWriteIhb (i : Nat) (b : Byte) (s : State) : State := { s with ih := s.ih.setIfInBounds i b }

/-! ### Single writes of the sequencers -/

/-- `OFF <- v`. -/
def setOff (v : BitVec 6) (s : State) : State := { s with off := v }

/-- `CNT <- (CNT + 1) mod 2^32` (R23, R114). -/
def countByte (s : State) : State := { s with cnt := s.cnt + 1 }

/-- `MODE <- m` (R27). -/
def setMode (m : Mode) (s : State) : State := { s with mode := m }

/-- `DG[4*i + j] <- H[i][31-8j : 24-8j]`, the whole register at once (R52, R120). -/
def takeDigest (s : State) : State := { s with dg := digestBytes s.h }

/-- `H <- unspecified`: a free value (R121; log entry 2). -/
def clobberHash (s : State) : State := { s with h := Config.freeHashState s.draws s.h s.w, draws := s.draws + 1 }

/-- DIGEST becomes unspecified when a later command begins: a free value (R26; log entry 2). -/
def clobberDigest (s : State) : State := { s with dg := Config.freeDigest s.draws s.dg s.h s.w, draws := s.draws + 1 }

/-! ### HASHBLOCK and ABSORB -/

/-- `HASHBLOCK`: `H <- compress(H, W)`, then `W <- unspecified`, a free value (R103, R111, R112; log entry 2). -/
def hashBlock (s : State) : State :=
  { s with h := compress s.h s.w, w := Config.freeMessageBuffer s.draws s.h s.w, draws := s.draws + 1 }

/-- `ABSORB(b)`: the byte goes to lane OFF; when that fills the block it is compressed at once and OFF returns to 0
(R101, R102). The value 64 of OFF is never stored (R22; log entry 12). -/
def absorb (b : Byte) (s : State) : State :=
  if s.off.toNat + 1 = Config.blockLength then setOff 0 (hashBlock (memWriteMb s.off b s))
  else setOff (s.off + 1) (memWriteMb s.off b s)

/-- Absorb a byte sequence, in order. -/
def absorbAll (bytes : List Byte) (s : State) : State := bytes.foldl (fun s b => absorb b s) s

/-! ### PAD and FINALIZE -/

/-- `while OFF != 56 do ABSORB(0x00)` (R115, R116), with a bound on the iterations. 63 are enough from every OFF
(R118); the lemma `padZeros_off` shows that the bound used by `pad` never cuts the loop short. -/
def padZeros : Nat → State → State
  | 0, s => s
  | fuel + 1, s => if s.off = Config.padLenAt then s else padZeros fuel (absorb 0 s)

/-- `PAD` (R115): the mark, the zeros, then the length field of CNT as it stands. The bytes are absorbed, not
counted (R116). -/
def pad (s : State) : State :=
  let zeroed := padZeros Config.blockLength (absorb Config.padMark s)
  absorbAll (lengthField zeroed.cnt) zeroed

/-- `FINALIZE` (R120, R121): pad, take the digest, leave HashState unspecified. -/
def finalize (s : State) : State := clobberHash (takeDigest (pad s))

/-! ### The Hasher's state writes, shared by the five commands -/

/-- The state writes of `INIT` but for MODE and DIGEST: `H <- IV`, `CNT <- 0`, `OFF <- 0` (R140). -/
def initHasher (s : State) : State := { s with h := Config.iv, cnt := 0, off := 0 }

/-- The state writes of `WRITE(b)` but for the response and DIGEST: count, then absorb (R143). -/
def writeByte (b : Byte) (s : State) : State := absorb b (countByte s)

/-- `for i = 0 to n-1: WRITE(bytes[i])`, without responses. -/
def writeAll (bytes : List Byte) (s : State) : State := bytes.foldl (fun s b => writeByte b s) s

/-! ### Key buffer and inner hash -/

/-- `for i = 0 to 63: K[i] <- 0x00` (R161). -/
def clearKey (s : State) : State := { s with k := Vector.replicate 64 0 }

/-- `K[i] <- bytes[0]`, `K[i+1] <- bytes[1]`, ... (R161). -/
def storeKey (i : Nat) : List Byte → State → State
  | [], s => s
  | b :: bytes, s => storeKey (i + 1) bytes (memWriteKb i b s)

/-- `IH[i] <- bytes[0]`, `IH[i+1] <- bytes[1]`, ... (R165). -/
def storeInner (i : Nat) : List Byte → State → State
  | [], s => s
  | b :: bytes, s => storeInner (i + 1) bytes (memWriteIhb i b s)

/-! ### The streams -/

/-- `respond(bytes)`: place bytes on the response stream (R11, R80). -/
def respond (bytes : List Byte) (s : State) : State := { s with resp := s.resp ++ bytes }

/-- The one response byte of WRITE: the count of bytes consumed, always 1 (R80, R144). -/
def ackByte : Byte := 0x01

/-- The command stream after a command has been consumed (R71). -/
def consume (rest : List Byte) (s : State) : State := { s with cmd := rest }

/-- Bytes placed at the head of the command stream, where the next command is read. -/
def placeCommand (bytes : List Byte) (s : State) : State := { s with cmd := bytes ++ s.cmd }

/-- The host sends bytes: they join the end of the command stream (R71). Not a step of the engine. -/
def hostSend (bytes : List Byte) (s : State) : State := { s with cmd := s.cmd ++ bytes }

/-- The host reads up to `n` response bytes; reading consumes them (R61). Not a step of the engine. -/
def hostRead (n : Nat) (s : State) : List Byte × State := (s.resp.take n, { s with resp := s.resp.drop n })

/-! ### What a step does when there is no whole command -/

/-- Stream exhausted at a command boundary: the engine holds its state (R214, R233; log entry 4). -/
def holdState (s : State) : Host.Outcome State Fault Refusal := .next s

/-- Stream ended inside a command: the engine waits for the missing bytes and has changed nothing (R83; log
entry 4). -/
def awaitBytes (s : State) : Host.Outcome State Fault Refusal := .next s

/-- A reserved opcode is given no meaning, nor is the rest of the stream (R81). -/
def refuseReserved (_ : State) : Host.Outcome State Fault Refusal := .refused .reservedOpcode

end Sys2Proof.Machine
end

