-- ==== Sys2Proof/Machine/Hasher.lean ====
section
/-! DEFINITION. The Hasher commands INIT, WRITE, RESULT (41_hasher_commands.md R140, R143, R146). -/

namespace Sys2Proof.Machine

/-- `INIT` (R140): H, CNT, OFF, MODE; DIGEST becomes unspecified; no response. -/
def execInit (s : State) : Host.Outcome State Fault Refusal :=
  underContract (contractInit s.mode) fun m => setMode m (clobberDigest (initHasher s))

/-- `WRITE b` (R143): count, absorb, respond `01`; DIGEST becomes unspecified; MODE unchanged. -/
def execWrite (b : Byte) (s : State) : Host.Outcome State Fault Refusal :=
  underContract (contractWrite s.mode) fun m => setMode m (respond [ackByte] (clobberDigest (writeByte b s)))

/-- The effect of RESULT before MODE is set: finalize and respond with the digest (R146). -/
def resultEffect (s : State) : State :=
  let final := finalize s
  respond final.dg.toList final

/-- `RESULT` (R146). -/
def execResult (s : State) : Host.Outcome State Fault Refusal :=
  underContract (contractResult s.mode) fun m => setMode m (resultEffect s)

end Sys2Proof.Machine
end

