-- ==== Sys2Proof/Machine/Hmac.lean ====
section
/-! DEFINITION. The HMAC commands INITHMAC and RESULTHMAC (42_hmac_commands.md R160 to R167). -/

namespace Sys2Proof.Machine

/-- The pre-hash of a long secret: a plain hash session inside the command (R162). -/
def preHash (secret : List Byte) (s : State) : State := finalize (writeAll secret (initHasher s))

/-- Key buffer construction (R161): zero it, then the secret, or the digest of a secret of more than 64 bytes
(R162). -/
def buildKey (secret : List Byte) (s : State) : State :=
  if secret.length > Config.blockLength then
    let hashed := preHash secret (clearKey s)
    storeKey 0 hashed.dg.toList hashed
  else storeKey 0 secret (clearKey s)

/-- A keyed iteration: re-initialise the Hasher and write each key byte XORed with the pad byte (R163, R165). -/
def keyedPass (padByte : Byte) (s : State) : State := writeAll (xorPad padByte s.k.toList) (initHasher s)

/-- `INITHMAC s` (R160): build the key block, run the inner pad pass; DIGEST becomes unspecified; no response. -/
def execInitHmac (secret : List Byte) (s : State) : Host.Outcome State Fault Refusal :=
  underContract (contractInitHmac s.mode) fun m =>
    setMode m (clobberDigest (keyedPass Config.ipad (buildKey secret s)))

/-- The first half of RESULTHMAC: finalize the inner hash and keep it in InnerHash (R165). -/
def innerFinalize (s : State) : State :=
  let inner := finalize s
  storeInner 0 inner.dg.toList inner

/-- The second half of RESULTHMAC: the outer pad pass, the InnerHash bytes, finalize (R165). -/
def outerHash (s : State) : State :=
  let keyed := keyedPass Config.opad s
  finalize (writeAll keyed.ih.toList keyed)

/-- The effect of RESULTHMAC before MODE is set (R165). -/
def resultHmacEffect (s : State) : State :=
  let final := outerHash (innerFinalize s)
  respond final.dg.toList final

/-- `RESULTHMAC` (R165). -/
def execResultHmac (s : State) : Host.Outcome State Fault Refusal :=
  underContract (contractResultHmac s.mode) fun m => setMode m (resultHmacEffect s)

end Sys2Proof.Machine
end

