-- ==== Sys2Proof/Machine/Dispatch.lean ====
section
/-! DEFINITION. One arm per command, each a direct call of its meaning. -/

namespace Sys2Proof.Machine

def exec (i : Instr) (s : State) : Host.Outcome State Fault Refusal :=
  match i with
  | .init => Sys2Proof.Machine.execInit s
  | .write b => Sys2Proof.Machine.execWrite b s
  | .result => Sys2Proof.Machine.execResult s
  | .initHmac secret => Sys2Proof.Machine.execInitHmac secret s
  | .resultHmac => Sys2Proof.Machine.execResultHmac s

end Sys2Proof.Machine
end

