-- ==== Sys2Proof/Machine/Step.lean ====
section
/-! DEFINITION. One step: the command at the head of the command stream, to completion (20_memory.md R62, R65). -/

namespace Sys2Proof.Machine

/-- One step of the engine (R65, R71): take the next whole command off the stream and perform it. With no whole
command there the engine holds its state (R233) or waits (R83); a reserved opcode is refused before MODE is looked at
(R81, R205). -/
def step (s : State) : Host.Outcome State Fault Refusal :=
  match decode s.cmd with
  | .empty => holdState s
  | .incomplete => awaitBytes s
  | .reserved => refuseReserved s
  | .command i rest => exec i (consume rest s)

/-- The state with the command of an opcode-table word at the head of the command stream, where `step` reads its next
command (log entries 3 and 18). -/
def State.withFetchWord (s : State) (nbits w : Nat) : State := placeCommand (tableBytes nbits w) s

end Sys2Proof.Machine
end

