-- ==== Sys2Proof/Machine/Programs.lean ====
section
/-! DEFINITION. Command sequences: the macros of 30_encoding.md R86, running decoded commands in order (R65), running
the machine, and the host's exchange with an engine. -/

namespace Sys2Proof.Machine

/-- `WRITES m` (R86). -/
def writesProgram (m : List Byte) : List Instr := m.map .write

/-- `SHA1 m` (R86): the plain hash session (41_hasher_commands.md R148). -/
def sha1Program (m : List Byte) : List Instr := .init :: (writesProgram m ++ [.result])

/-- `HMACSHA1 s, m` (R86): the HMAC session (42_hmac_commands.md R168). -/
def hmacProgram (secret m : List Byte) : List Instr := .initHmac secret :: (writesProgram m ++ [.resultHmac])

/-- Decoded commands performed one after the other, each to completion, up to the first that is refused (R65, R203). -/
def runProgram : List Instr → State → Host.Outcome State Fault Refusal
  | [], s => .next s
  | i :: is, s =>
    match exec i s with
    | .next t => runProgram is t
    | .fault f => .fault f
    | .refused r => .refused r

/-- `n` steps of the machine, stopping at the first refusal. -/
def run (n : Nat) (s : State) : Host.Outcome State Fault Refusal := Sys2Proof.core.run n s

/-- The engine performs the whole commands of its stream. A command has at least one byte, so that there are no more
commands than bytes, and with no command left a step holds the state. -/
def serve (s : State) : Host.Outcome State Fault Refusal := run s.cmd.length s

/-- The state of an engine whose outcome is good and which has no byte of a command left. -/
def settled : Host.Outcome State Fault Refusal → Option State
  | .next s => if s.cmd = [] then some s else none
  | .fault _ => none
  | .refused _ => none

/-- The host's exchange with an engine: the host waits until the engine has performed what it was sent before and reads
the answers to that, sends the bytes of a program, and reads the answers to it, which consumes them (R61). No other
commands come between (R225). `none` where a command is refused or left unfinished (log entry 24). -/
def exchange (program : List Instr) (s : State) : Option (List Byte × State) :=
  match settled (serve s) with
  | none => none
  | some idle =>
    match settled (serve (hostSend (encodeAll program) (hostRead idle.resp.length idle).2)) with
    | none => none
    | some t => some (hostRead t.resp.length t)

end Sys2Proof.Machine
end

