-- ==== Sys2Proof/Machine/Assembler.lean ====
section
/-! DEFINITION. The spec's program notation (30_encoding.md R85, R86): text, as a list of characters, to commands.
The choices the spec leaves open are in log entry 19. -/

namespace Sys2Proof.Machine

/-- A piece of a program line. -/
inductive Token where
  /-- A mnemonic or a number: characters up to a blank. -/
  | word (chars : List Char)
  /-- The characters between two double quotes. -/
  | text (chars : List Char)
  /-- The comma of `HMACSHA1 s, m`. -/
  | comma
  deriving DecidableEq, Repr

/-- Where the scanner of one line stands. Collected characters are held newest first. -/
inductive Scan where
  | between
  | inWord (revChars : List Char)
  | inText (revChars : List Char)
  | inComment
  deriving DecidableEq, Repr

/-- One character outside a text: a blank, a comma, a quote, the start of a comment, or part of a word. -/
def scanPlain (done : List Token) (pending : List Char) (c : Char) : Scan × List Token :=
  let ended := if pending.isEmpty then done else done ++ [.word pending.reverse]
  if c = ' ' ∨ c = '\t' then (.between, ended)
  else if c = ',' then (.between, ended ++ [.comma])
  else if c = '"' then (.inText [], ended)
  else if c = ';' then (.inComment, ended)
  else (.inWord (c :: pending), done)

/-- One character of a line (R85: a comment runs from `;` to the end of the line). -/
def scanChar (p : Scan × List Token) (c : Char) : Scan × List Token :=
  match p.1 with
  | .between => scanPlain p.2 [] c
  | .inWord chars => scanPlain p.2 chars c
  | .inText chars => if c = '"' then (.between, p.2 ++ [.text chars.reverse]) else (.inText (c :: chars), p.2)
  | .inComment => p

/-- The tokens of a line; a text that is not closed has none. -/
def tokens (line : List Char) : Option (List Token) :=
  match line.foldl scanChar (.between, []) with
  | (.between, done) => some done
  | (.inWord chars, done) => some (done ++ [.word chars.reverse])
  | (.inText _, _) => none
  | (.inComment, done) => some done

/-- The value of a digit in a base of at most 16. -/
def digitValue (base : Nat) (c : Char) : Option Nat :=
  let v :=
    if 48 ≤ c.toNat ∧ c.toNat ≤ 57 then c.toNat - 48
    else if 97 ≤ c.toNat ∧ c.toNat ≤ 102 then c.toNat - 87
    else if 65 ≤ c.toNat ∧ c.toNat ≤ 70 then c.toNat - 55
    else 16
  if v < base then some v else none

/-- The number a digit sequence writes, after the digits already read. -/
def digitsValue (base acc : Nat) : List Char → Option Nat
  | [] => some acc
  | c :: cs =>
    match digitValue base c with
    | some v => digitsValue base (acc * base + v) cs
    | none => none

/-- A non-empty digit sequence whose number is a byte. -/
def byteIn (base : Nat) (digits : List Char) : Option Byte :=
  match digits with
  | [] => none
  | _ :: _ =>
    match digitsValue base 0 digits with
    | some v => if v < 256 then some (BitVec.ofNat 8 v) else none
    | none => none

/-- The operand of `WRITE`: a byte in hexadecimal (`0x61`) or decimal (R85). -/
def writeOperand : List Char → Option Byte
  | '0' :: 'x' :: digits => byteIn 16 digits
  | digits => byteIn 10 digits

/-- A byte sequence in hexadecimal, possibly empty (R85). -/
def hexBytes : List Token → Option (List Byte)
  | [] => some []
  | .word digits :: rest =>
    match byteIn 16 digits, hexBytes rest with
    | some b, some bs => some (b :: bs)
    | _, _ => none
  | .text _ :: _ => none
  | .comma :: _ => none

/-- The ASCII bytes of a string, no terminator (R85). -/
def asciiBytes : List Char → Option (List Byte)
  | [] => some []
  | c :: cs =>
    match asciiBytes cs with
    | some bs => if c.toNat < 128 then some (BitVec.ofNat 8 c.toNat :: bs) else none
    | none => none

/-- A byte-sequence operand: one string, or bytes in hexadecimal (R85). -/
def bytesOperand : List Token → Option (List Byte)
  | [.text chars] => asciiBytes chars
  | toks => hexBytes toks

/-- The tokens before and after the first comma. -/
def splitComma : List Token → Option (List Token × List Token)
  | [] => none
  | .comma :: rest => some ([], rest)
  | .word w :: rest => (splitComma rest).map fun p => (.word w :: p.1, p.2)
  | .text w :: rest => (splitComma rest).map fun p => (.text w :: p.1, p.2)

/-- The operands of `HMACSHA1 s, m` (R86). -/
def hmacOperands (toks : List Token) : Option (List Byte × List Byte) :=
  match splitComma toks with
  | none => none
  | some (left, right) =>
    match bytesOperand left, bytesOperand right with
    | some secret, some m => some (secret, m)
    | _, _ => none

/-- The commands of one line (R85), a macro as its expansion (R86); a blank line has none. -/
def assembleTokens : List Token → Option (List Instr)
  | [] => some []
  | .word ['I', 'N', 'I', 'T'] :: [] => some [.init]
  | .word ['W', 'R', 'I', 'T', 'E'] :: .word operand :: [] => (writeOperand operand).map fun b => [.write b]
  | .word ['R', 'E', 'S', 'U', 'L', 'T'] :: [] => some [.result]
  | .word ['I', 'N', 'I', 'T', 'H', 'M', 'A', 'C'] :: toks => (bytesOperand toks).map fun s => [.initHmac s]
  | .word ['R', 'E', 'S', 'U', 'L', 'T', 'H', 'M', 'A', 'C'] :: [] => some [.resultHmac]
  | .word ['W', 'R', 'I', 'T', 'E', 'S'] :: toks => (bytesOperand toks).map writesProgram
  | .word ['S', 'H', 'A', '1'] :: toks => (bytesOperand toks).map sha1Program
  | .word ['H', 'M', 'A', 'C', 'S', 'H', 'A', '1'] :: toks => (hmacOperands toks).map fun p => hmacProgram p.1 p.2
  | _ => none

/-- The lines of a text. -/
def splitLines : List Char → List (List Char)
  | [] => [[]]
  | c :: cs =>
    match splitLines cs with
    | [] => [[c]]
    | line :: more => if c = '\n' then [] :: line :: more else (c :: line) :: more

/-- The commands of one line of text. -/
def assembleLine (line : List Char) : Option (List Instr) := (tokens line).bind assembleTokens

/-- A program: one command a line (R85). A secret that is too long for the encoding does not assemble (R78). -/
def assemble (text : List Char) : Option (List Instr) :=
  match (splitLines text).mapM assembleLine with
  | none => none
  | some lines => if lines.flatten.all Instr.wellFormed then some lines.flatten else none

end Sys2Proof.Machine
end

