-- ==== Sys2Proof/Machine/Reference.lean ====
section
/-! DEFINITION. The hash as a function and HMAC as a formula (40_compression.md R122; 42_hmac_commands.md R168): what
the command sequences are stated to compute. Nothing of the machine's state occurs here. -/

namespace Sys2Proof.Machine

/-- Sixteen words of a 64-byte block (20_memory.md R54; R122). -/
def blockWords (bytes : List Byte) : Vector Word 16 :=
  Vector.ofFn fun i : Fin 16 =>
    be32 (bytes.getD (4 * i.val) 0) (bytes.getD (4 * i.val + 1) 0) (bytes.getD (4 * i.val + 2) 0)
      (bytes.getD (4 * i.val + 3) 0)

/-- `compress` folded over the first `q` blocks of 64 bytes, from `h` (R34, R122). -/
def chainBlocks (h : Vector Word 5) : Nat → List Byte → Vector Word 5
  | 0, _ => h
  | q + 1, bytes => chainBlocks (compress h (blockWords (bytes.take 64))) q (bytes.drop 64)

/-- `compress` folded over all complete blocks of a byte sequence, from `h` (R34, R122). -/
def chain (h : Vector Word 5) (bytes : List Byte) : Vector Word 5 := chainBlocks h (bytes.length / 64) bytes

/-- `z = (55 - n) mod 64`, the number of zero bytes of the padding (R118, R122). -/
def zeroCount (n : Nat) : Nat := (119 - n % 64) % 64

/-- `be64(v)`: eight bytes, most significant first (R122). -/
def be64 (v : Nat) : List Byte := (List.range 8).map fun i => BitVec.ofNat 8 (v >>> (8 * (7 - i)))

/-- `P = m ‖ 0x80 ‖ 0x00^z ‖ be64(8n)` (R122). -/
def paddedMessage (m : List Byte) : List Byte :=
  m ++ [Config.padMark] ++ List.replicate (zeroCount m.length) 0 ++ be64 (8 * m.length)

/-- `SHA1(m)` (R122), as the 20 digest bytes. -/
def sha1 (m : List Byte) : Vector Byte 20 := digestBytes (chain Config.iv (paddedMessage m))

/-- The padding the engine absorbs after a message of `off` pending bytes and count `cnt` (R115 to R118). -/
def enginePadding (off : Nat) (cnt : BitVec 32) : List Byte :=
  [Config.padMark] ++ List.replicate (zeroCount off) 0 ++ lengthField cnt

/-- What the engine answers for a message of any length: the compression chain over the message followed by its
padding with the truncated length field (R119). -/
def engineDigest (m : List Byte) : Vector Byte 20 :=
  digestBytes (chain Config.iv (m ++ enginePadding m.length (BitVec.ofNat 32 m.length)))

/-- The key block `Kb`: the secret, or its digest when it is longer than 64 bytes, zero-padded to 64 bytes (R161). -/
def keyBlock (secret : List Byte) : Vector Byte 64 :=
  let key := if secret.length > Config.blockLength then (sha1 secret).toList else secret
  Vector.ofFn fun i : Fin 64 => key.getD i.val 0

/-- `HMAC(s, m) = SHA1((Kb ^ opad64) ‖ SHA1((Kb ^ ipad64) ‖ m))` (R168). -/
def hmac (secret m : List Byte) : Vector Byte 20 :=
  sha1 (xorPad Config.opad (keyBlock secret).toList ++
    (sha1 (xorPad Config.ipad (keyBlock secret).toList ++ m)).toList)

end Sys2Proof.Machine
end

