-- ==== Sys2Proof/Machine/Totp.lean ====
section
/-! DEFINITION. The TOTP generator, host software over the engine's commands (45_totp_host.md R180 to R188). It owns no
engine state (00_scope.md R4). -/

namespace Sys2Proof.Machine

/-- Construction parameters (R180, R8): the secret and the time step in seconds, default 30. DESIGN CHOICE: the time
step is an unsigned 64-bit number, as the timestamp is (D24); the spec states no width for it (log entry 16). -/
structure Totp where
  secret : List Byte
  timeStep : BitVec 64 := 30
  deriving DecidableEq, Repr

/-- Step 1 (R181): `timestamp div timeStep`, unsigned 64-bit. A zero time step is given no value (U8). -/
def totpSteps (timestamp timeStep : BitVec 64) : Option (BitVec 64) :=
  if timeStep = 0 then none else some (timestamp / timeStep)

/-- Step 2 (R182): `c[i] = (steps >> (8*(7-i))) & 0xFF`. -/
def movingFactor (steps : BitVec 64) : List Byte :=
  (List.range 8).map fun i => (steps >>> (8 * (7 - i))).setWidth 8

/-- `offset = digest[19] & 0x0F` (R184). -/
def truncationOffset (d : Vector Byte 20) : Nat := (d[19] &&& 0x0F).toNat

/-- The offset is 0..15, so that no read leaves the digest (R184). -/
theorem truncationOffset_lt (d : Vector Byte 20) : truncationOffset d < 16 := by
  have h : (d[19] &&& (0x0F : Byte)).toNat ≤ 15 := by
    rw [BitVec.toNat_and]
    exact Nat.and_le_right
  simp only [truncationOffset]
  omega

/-- Step 4, dynamic truncation (R184): four bytes from the offset, big-endian, top bit masked. -/
def truncateDigest (d : Vector Byte 20) : Word :=
  have h := truncationOffset_lt d
  be32 d[truncationOffset d] d[truncationOffset d + 1] d[truncationOffset d + 2] d[truncationOffset d + 3]
    &&& 0x7FFFFFFF

/-- Step 5 (R185). -/
def sixDigitValue (v : Word) : Nat := v.toNat % 1000000

/-- One ASCII decimal digit. -/
def asciiDigit (n : Nat) : Byte := BitVec.ofNat 8 (0x30 + n % 10)

/-- Step 6 (R186): six ASCII digits, most significant first. -/
def formatCode (code : Nat) : List Byte :=
  [asciiDigit (code / 100000), asciiDigit (code / 10000), asciiDigit (code / 1000), asciiDigit (code / 100),
    asciiDigit (code / 10), asciiDigit code]

/-- Steps 4 to 6 on a digest. -/
def codeOfDigest (d : Vector Byte 20) : List Byte := formatCode (sixDigitValue (truncateDigest d))

/-- Twenty bytes taken from a stream. -/
def digestFrom (bytes : List Byte) : Vector Byte 20 := Vector.ofFn fun i : Fin 20 => bytes.getD i.val 0

/-- A secret that INITHMAC can carry: the secret, or, when it is longer than the encoding's length field, its digest,
which the host takes by a plain hash session first (30_encoding.md R78). -/
def sendableSecret (secret : List Byte) (s : State) : Option (List Byte × State) :=
  if secret.length ≤ Config.keyLenMax then some (secret, s)
  else (exchange (sha1Program secret) s).map fun p => (p.1.drop secret.length, p.2)

/-- Step 3 (R183): one HMAC session over the counter bytes. The digest is what follows the eight responses of WRITE
(R80). -/
def counterHmac (secret : List Byte) (steps : BitVec 64) (s : State) : Option (Vector Byte 20 × State) :=
  match sendableSecret secret s with
  | none => none
  | some (key, ready) =>
    (exchange (hmacProgram key (movingFactor steps)) ready).map fun p => (digestFrom (p.1.drop 8), p.2)

/-- `getCode(timestamp)` on an engine (R180): the code, and the engine after the host has read its responses. `none`
where the spec gives no value, and where the host finds the engine inside another command (log entries 16 and 24). -/
def getCode (cfg : Totp) (timestamp : BitVec 64) (s : State) : Option (List Byte × State) :=
  match totpSteps timestamp cfg.timeStep with
  | none => none
  | some steps => (counterHmac cfg.secret steps s).map fun p => (codeOfDigest p.1, p.2)

end Sys2Proof.Machine
end

