-- ==== Sys2Proof/Safety.lean ====
section
/-! DEFINITION. The terms claims use: the ends of a run, the open-session invariant, and when two states cannot be
told apart through the engine's responses. -/

namespace Sys2Proof.Machine

/-- The run is over and good: the stream is exhausted at a command boundary and nothing was refused (R233). -/
def State.final (s : State) : Bool := decide (s.cmd = [])

/-- The engine waits inside a command: stuck, not final (R83). -/
def State.waiting (s : State) : Bool := decide (decode s.cmd = .incomplete)

/-- The closed list of reasons for which a command has no meaning (60_exceptions.md R203). -/
def listedRefusals : List Refusal :=
  [.reservedOpcode, .writeUnprimed, .writeDone, .resultUnprimed, .resultDone, .resultInHmac, .resultHmacUnprimed,
    .resultHmacInHash, .resultHmacDone]

/-- The engine performs all that waits on its command stream, and no command is left unfinished: the host may begin a
session of its own (45_totp_host.md R188; 70_reset_and_hazards.md R225). -/
def Settles (s : State) : Prop := ∃ u, serve s = .next u ∧ u.cmd = []

/-- R34: an open session into which the bytes `m` have been written. CNT counts them
modulo `2^32`, OFF is the position in the block, H is the chain over the complete blocks, and the lanes below OFF hold
the pending bytes. The lanes at OFF and above are not constrained. -/
structure SessionOf (m : List Byte) (s : State) : Prop where
  count : s.cnt = BitVec.ofNat 32 m.length
  offset : s.off.toNat = m.length % 64
  hashed : s.h = chain Config.iv m
  pending : ∀ k : Fin 64, k.val < s.off.toNat → memRead s (.mb k) = m.getD (64 * (m.length / 64) + k.val) 0

/-- The invariant of the machine: in an open session the Hasher stands where the written bytes put it (R34), in an
HMAC session after the 64 bytes `K[i] ^ 0x36` of the current key block; in DONE the offset is 0 (R121) and the response
stream ends with DIGEST (R26, R80). -/
structure Inv (s : State) : Prop where
  inHash : s.mode = .hash → ∃ m, SessionOf m s
  inHmac : s.mode = .hmac → ∃ m, SessionOf (xorPad Config.ipad s.k.toList ++ m) s
  inDone : s.mode = .done → s.off = 0 ∧ ∃ earlier, s.resp = earlier ++ s.dg.toList

/-- The Hasher fields that a later command reads agree: H, CNT, OFF, and the lanes below OFF (R58). -/
structure SameHasher (s t : State) : Prop where
  hash : s.h = t.h
  count : s.cnt = t.cnt
  offset : s.off = t.off
  lanes : ∀ k : Fin 64, k.val < s.off.toNat → memRead s (.mb k) = memRead t (.mb k)

/-- Two states that agree on everything a defined response can depend on: the streams and MODE, the Hasher while a
session is open, the key block while an HMAC session is open, DIGEST while it is valid (R58, R221, U5). -/
structure SameVisible (s t : State) : Prop where
  mode : s.mode = t.mode
  cmd : s.cmd = t.cmd
  resp : s.resp = t.resp
  hasher : s.mode = .hash ∨ s.mode = .hmac → SameHasher s t
  key : s.mode = .hmac → s.k = t.k
  digest : s.mode = .done → s.dg = t.dg

/-- Two outcomes that the host cannot tell apart. -/
def sameOutcome : Host.Outcome State Fault Refusal → Host.Outcome State Fault Refusal → Prop
  | .next s, .next t => SameVisible s t
  | .refused r, .refused q => r = q
  | _, _ => False

end Sys2Proof.Machine
end

