-- ==== Sys2Proof/Certificates/Slice0/Obligations.lean ====
section
/-! DEFINITION. The statements about the model, for the provers. -/

open Sys2Proof Sys2Proof.Machine

/-! ### Encoding and the command stream -/

/-- Every well-formed command is read back from its bytes, whatever follows them (30_encoding.md R71 to R79). -/
def Obligations.EncodedCommandIsReadBack : Prop :=
  ∀ (i : Instr) (rest : List Byte), i.wellFormed = true → decode (encode i ++ rest) = .command i rest

/-- The other direction: a command the decoder reads is well formed, and the bytes it took are exactly that command's
encoding, so no two byte sequences stand for one command (30_encoding.md R71 to R79, R82). -/
def Obligations.DecodedCommandIsItsBytes : Prop :=
  ∀ (bytes : List Byte) (i : Instr) (rest : List Byte),
    decode bytes = .command i rest → i.wellFormed = true ∧ bytes = encode i ++ rest

/-- Words of the spec's encodings, written out: the bit patterns of R73 to R77 and 95_test_vectors.md V22, decoding by
position included. -/
def Obligations.TableWordsDecode : Prop :=
  decode [0b00000001] = .command .init [] ∧
  decode [0b00000010, 0b01100001] = .command (.write 0x61) [] ∧
  decode [0b00000011] = .command .result [] ∧
  decode [0b00000100, 0b00000000, 0b00000100, 0x4a, 0x65, 0x66, 0x65] =
    .command (.initHmac [0x4a, 0x65, 0x66, 0x65]) [] ∧
  decode [0b00000101] = .command .resultHmac [] ∧
  decode [0x02, 0x03, 0x03] = .command (.write 0x03) [0x03] ∧
  decode [0x04, 0x00, 0x02, 0x01, 0x03, 0x05] = .command (.initHmac [0x01, 0x03]) [0x05]

/-- A reserved opcode, 0x00 or 0x06 to 0xFF, at the head of the stream is refused in every state, whatever MODE and
whatever follows; and nothing else is refused for that reason (30_encoding.md R81; 60_exceptions.md R205). -/
def Obligations.ReservedOpcodesAreRefused : Prop :=
  ∀ s : State, step s = .refused .reservedOpcode ↔
    ∃ op rest, s.cmd = op :: rest ∧ (op = 0x00 ∨ 0x06 ≤ op.toNat)

/-- A stream that ends inside a command: the step changes nothing, and once the host has sent the missing bytes the
step performs the whole command (30_encoding.md R83). The step answering the unchanged state is the model's form of
"stuck" (log entry 4). -/
def Obligations.PartialCommandWaits : Prop :=
  ∀ (s : State) (i : Instr) (n : Nat), i.wellFormed = true → 0 < n → n < (encode i).length →
    s.cmd = (encode i).take n →
    step s = .next s ∧ s.waiting = true ∧ step (hostSend ((encode i).drop n) s) = exec i (consume [] s)

/-- With the stream exhausted at a command boundary the engine holds its state, for any number of steps
(60_exceptions.md R214; 70_reset_and_hazards.md R233). -/
def Obligations.ExhaustedStreamHolds : Prop :=
  ∀ (n : Nat) (s : State), s.final = true → run n s = .next s

/-- A step runs the decoded command: when the bytes at the head of the stream decode to a command, the step is its
execution in the state whose stream has moved past the command's bytes (30_encoding.md R71; 20_memory.md R65). -/
def Obligations.StepRunsTheDecodedCommand : Prop :=
  ∀ (s : State) (i : Instr) (rest : List Byte),
    decode s.cmd = .command i rest → step s = exec i (consume rest s)

/-- Commands laid end to end on the stream are performed in stream order, each to completion, and the bytes after
them stay (20_memory.md R65; 30_encoding.md R71). -/
def Obligations.StreamIsPerformedInOrder : Prop :=
  ∀ (is : List Instr) (rest : List Byte) (s : State), (∀ i ∈ is, i.wellFormed = true) →
    run is.length (consume (encodeAll is ++ rest) s) = runProgram is (consume rest s)

/-- Bytes the host sends while a whole command waits join the end of the stream and change nothing of that command:
sent before or after its step, they leave the same machine (20_memory.md R62; 30_encoding.md R71). -/
def Obligations.SendingDuringACommandChangesNothing : Prop :=
  ∀ (s : State) (i : Instr) (rest bytes : List Byte), decode s.cmd = .command i rest →
    (∀ t, step s = .next t → step (hostSend bytes s) = .next (hostSend bytes t)) ∧
    (∀ r, step s = .refused r → step (hostSend bytes s) = .refused r)

/-- Reading responses consumes them from the front and disturbs nothing: whether the host reads `n` waiting bytes before
or after a step, the machine it leaves is the same (20_memory.md R61, R65). -/
def Obligations.ReadingResponsesDisturbsNothing : Prop :=
  ∀ (s : State) (n : Nat), n ≤ s.resp.length →
    (hostRead n s).1 = s.resp.take n ∧ (hostRead n s).2.resp = s.resp.drop n ∧
    (∀ t, step s = .next t → step (hostRead n s).2 = .next (hostRead n t).2) ∧
    (∀ r, step s = .refused r → step (hostRead n s).2 = .refused r)

/-! ### Reset and the calling contract -/

/-- Reset as the spec states it: MODE is UNPRIMED, the decoder stands at a command boundary and both streams are empty
(70_reset_and_hazards.md R220; 10_state.md R36). Nothing is said of the registers, whose reset values are the model's
own (log entry 1). -/
def Obligations.ResetLeavesTheEngineUnprimed : Prop :=
  State.reset.mode = .unprimed ∧ State.reset.cmd = [] ∧ State.reset.resp = []

/-- The calling contract, all twenty cells: in which MODE each command is performed and the MODE it leaves, and the
reason for each refusal (60_exceptions.md R204). -/
def Obligations.CallingContract : Prop :=
  ∀ (s : State) (b : Byte) (secret : List Byte),
    (∃ t, exec .init s = .next t ∧ t.mode = .hash) ∧
    (∃ t, exec (.initHmac secret) s = .next t ∧ t.mode = .hmac) ∧
    (s.mode = .unprimed →
      exec (.write b) s = .refused .writeUnprimed ∧ exec .result s = .refused .resultUnprimed ∧
      exec .resultHmac s = .refused .resultHmacUnprimed) ∧
    (s.mode = .hash →
      (∃ t, exec (.write b) s = .next t ∧ t.mode = .hash) ∧ (∃ t, exec .result s = .next t ∧ t.mode = .done) ∧
      exec .resultHmac s = .refused .resultHmacInHash) ∧
    (s.mode = .hmac →
      (∃ t, exec (.write b) s = .next t ∧ t.mode = .hmac) ∧ exec .result s = .refused .resultInHmac ∧
      (∃ t, exec .resultHmac s = .next t ∧ t.mode = .done)) ∧
    (s.mode = .done →
      exec (.write b) s = .refused .writeDone ∧ exec .result s = .refused .resultDone ∧
      exec .resultHmac s = .refused .resultHmacDone)

/-- Every step either answers a next state or is refused for one of the nine reasons of the spec's closed list: there is
no fault (60_exceptions.md R200), and no command is without a meaning. A refusal is kept: nothing after it is a result
(60_exceptions.md R203). -/
def Obligations.EveryStopIsAListedRefusal : Prop :=
  (∀ s : State, (∃ t, step s = .next t) ∨ ∃ r ∈ listedRefusals, step s = .refused r) ∧
  (∀ (s : State) (mnemonic : String), step s ≠ .refused (.notModelled mnemonic)) ∧
  ∀ (s : State) (n m : Nat) (r : Refusal), run n s = .refused r → run (n + m) s = .refused r

/-! ### The five commands: result, completion, frame -/

/-- INIT: the five constants, both counters zero, MODE HASH, in every state; MessageBuffer, key buffer, inner hash and
the streams are untouched (41_hasher_commands.md R140). -/
def Obligations.InitLoadsTheConstants : Prop :=
  ∀ s : State, ∃ t, exec .init s = .next t ∧
    t.h = #v[0x67452301, 0xEFCDAB89, 0x98BADCFE, 0x10325476, 0xC3D2E1F0] ∧
    t.cnt = 0 ∧ t.off = 0 ∧ t.mode = .hash ∧
    t.w = s.w ∧ t.k = s.k ∧ t.ih = s.ih ∧ t.cmd = s.cmd ∧ t.resp = s.resp

/-- INIT is idempotent: a second INIT changes nothing but DIGEST, which is unspecified after either, and the model's
draw counter (20_memory.md R61; 41_hasher_commands.md R140). -/
def Obligations.InitTwiceEqualsInitOnce : Prop :=
  ∀ s : State, ∃ t u, exec .init s = .next t ∧ exec .init t = .next u ∧
    u = { t with dg := u.dg, draws := u.draws }

/-- WRITE inside a block: the count and OFF advance by one, the byte lies in lane OFF and every other lane, H, MODE,
the key buffer and the inner hash are as before, and the response is one byte 0x01
(41_hasher_commands.md R143; 20_memory.md R54). -/
def Obligations.WriteInsideBlock : Prop :=
  ∀ (s : State) (b : Byte), s.mode = .hash ∨ s.mode = .hmac → s.off.toNat < 63 →
    ∃ t, exec (.write b) s = .next t ∧
      t.cnt.toNat = (s.cnt.toNat + 1) % 2 ^ 32 ∧ t.off.toNat = s.off.toNat + 1 ∧ t.h = s.h ∧
      (∀ a : Fin 64, memRead t (.mb a) = if a.val = s.off.toNat then b else memRead s (.mb a)) ∧
      t.mode = s.mode ∧ t.resp = s.resp ++ [0x01] ∧
      t.k = s.k ∧ t.ih = s.ih ∧ t.cmd = s.cmd

/-- WRITE that fills the block compresses it inside the same command: H becomes the compression of H with the sixty-four
lanes, the last of them the byte written, and OFF returns to 0 (40_compression.md R102; 41_hasher_commands.md R143). -/
def Obligations.WriteThatFillsTheBlock : Prop :=
  ∀ (s : State) (b : Byte), s.mode = .hash ∨ s.mode = .hmac → s.off.toNat = 63 →
    ∃ t, exec (.write b) s = .next t ∧
      t.cnt.toNat = (s.cnt.toNat + 1) % 2 ^ 32 ∧ t.off = 0 ∧
      t.h = compress s.h (s.w.set 15 (be32 (memRead s (.mb 60)) (memRead s (.mb 61)) (memRead s (.mb 62)) b)) ∧
      t.mode = s.mode ∧ t.resp = s.resp ++ [0x01] ∧
      t.k = s.k ∧ t.ih = s.ih ∧ t.cmd = s.cmd

/-- RESULT: it absorbs the mark, `(55 - OFF) mod 64` zero bytes and the length field of CNT, answers the digest bytes
of the HashState so reached, and ends the session; CNT, key buffer and inner hash are as before
(41_hasher_commands.md R146; 40_compression.md R115 to R120). -/
def Obligations.ResultAnswersThePaddedDigest : Prop :=
  ∀ s : State, s.mode = .hash →
    ∃ t, exec .result s = .next t ∧
      t.dg = digestBytes (absorbAll (enginePadding s.off.toNat s.cnt) s).h ∧
      t.resp = s.resp ++ t.dg.toList ∧ t.off = 0 ∧ t.cnt = s.cnt ∧ t.mode = .done ∧
      t.k = s.k ∧ t.ih = s.ih ∧ t.cmd = s.cmd

/-- INITHMAC, in every state and for every secret the encoding carries: the key block, the count 64, OFF 0, H the
compression of the constants with the inner pad block; inner hash and streams untouched
(42_hmac_commands.md R160 to R164). -/
def Obligations.InitHmacPrimesTheInnerHash : Prop :=
  ∀ (s : State) (secret : List Byte), secret.length ≤ 65535 →
    ∃ t, exec (.initHmac secret) s = .next t ∧
      t.k.toList = (if secret.length ≤ 64 then secret ++ List.replicate (64 - secret.length) 0
        else (sha1 secret).toList ++ List.replicate 44 0) ∧
      t.cnt = 64 ∧ t.off = 0 ∧
      t.h = compress Config.iv (blockWords (t.k.toList.map (· ^^^ 0x36))) ∧
      t.mode = .hmac ∧ t.ih = s.ih ∧ t.cmd = s.cmd ∧ t.resp = s.resp

/-- RESULTHMAC: InnerHash is the digest of the inner session's padded bytes, DIGEST the SHA-1 of the outer pad block
followed by InnerHash, and the response is DIGEST; the count is 84, OFF 0, the key block as before
(42_hmac_commands.md R165). -/
def Obligations.ResultHmacAnswersTheOuterHash : Prop :=
  ∀ s : State, s.mode = .hmac →
    ∃ t, exec .resultHmac s = .next t ∧
      t.ih = digestBytes (absorbAll (enginePadding s.off.toNat s.cnt) s).h ∧
      t.dg = sha1 (s.k.toList.map (· ^^^ 0x5C) ++ t.ih.toList) ∧
      t.resp = s.resp ++ t.dg.toList ∧ t.cnt = 84 ∧ t.off = 0 ∧ t.mode = .done ∧
      t.k = s.k ∧ t.cmd = s.cmd

/-- Whole-machine frame: only INITHMAC writes a byte of the key buffer, only RESULTHMAC a byte of the inner hash, and no
command touches the bytes that stand after it on the command stream (10_state.md R24, R25). -/
def Obligations.KeyAndInnerHashWriters : Prop :=
  ∀ (i : Instr) (s t : State), exec i s = .next t →
    ((∀ secret, i ≠ .initHmac secret) → ∀ a : Fin 64, memRead t (.kb a) = memRead s (.kb a)) ∧
    (i ≠ .resultHmac → ∀ a : Fin 20, memRead t (.ihb a) = memRead s (.ihb a)) ∧
    t.cmd = s.cmd

/-- What each command places on the response stream, behind what is there: nothing, one byte 0x01, or the twenty bytes
of DIGEST, byte 0 first (30_encoding.md R80). -/
def Obligations.ResponsesOfTheCommands : Prop :=
  ∀ (i : Instr) (s t : State), exec i s = .next t →
    t.resp = s.resp ++
      (match i with
        | .init => []
        | .write _ => [0x01]
        | .result => t.dg.toList
        | .initHmac _ => []
        | .resultHmac => t.dg.toList)

/-! ### Key blocks -/

/-- Key-length branching: a secret of more than 64 bytes and its own SHA-1 digest given as the secret leave the same
machine, but for the values the spec leaves unspecified: MessageBuffer, DIGEST and the model's draw counter
(42_hmac_commands.md R162). -/
def Obligations.LongSecretEqualsItsDigest : Prop :=
  ∀ (s : State) (secret : List Byte), 64 < secret.length → secret.length ≤ 65535 →
    ∃ t u, exec (.initHmac secret) s = .next t ∧ exec (.initHmac (sha1 secret).toList) s = .next u ∧
      t = { u with w := t.w, dg := t.dg, draws := t.draws }

/-- A trailing zero byte of a short secret cannot be told from padding: the two commands are the same function of the
state (42_hmac_commands.md R161). -/
def Obligations.TrailingZeroOfSecretIsInvisible : Prop :=
  ∀ (s : State) (secret : List Byte), secret.length < 64 →
    exec (.initHmac (secret ++ [0])) s = exec (.initHmac secret) s

/-! ### Internal operations -/

/-- PAD absorbs the mark, `(55 - OFF) mod 64` zero bytes and the eight length bytes, and nothing else: the loop's
equality test in closed form. It ends at OFF 0 with CNT unchanged (40_compression.md R115, R116, R118). -/
def Obligations.PadAbsorbsMarkZerosLength : Prop :=
  ∀ s : State, pad s = absorbAll (enginePadding s.off.toNat s.cnt) s ∧
    (enginePadding s.off.toNat s.cnt).length = 1 + (55 + 64 - s.off.toNat) % 64 + 8 ∧
    (pad s).off = 0 ∧ (pad s).cnt = s.cnt

/-- The model's draw counter advances in PAD by one from OFF 0 to 55 and by two from 56 to 63. PAD advances it once for
each HASHBLOCK and for nothing else, so that the advance is the number of compressions (40_compression.md R118); the
counter is the model's own field (log entry 2). -/
def Obligations.PadRunsOneOrTwoCompressions : Prop :=
  ∀ s : State, (pad s).draws = s.draws + if s.off.toNat ≤ 55 then 1 else 2

/-- How far each of the five commands advances the model's draw counter, which is the model's own field (log entry 2). It
advances once for each HASHBLOCK, once for each FINALIZE (H becomes unspecified), and once in INIT, WRITE and INITHMAC
(DIGEST becomes unspecified). What remains after the last two are the compressions: INIT none, WRITE 0 or 1, RESULT 1 or 2,
INITHMAC 1, or `1 + ((L + 8) div 64) + 1` for a long secret, RESULTHMAC 3 or 4 (70_reset_and_hazards.md R231). -/
def Obligations.CompressionsPerCommand : Prop :=
  ∀ s : State,
    (∀ t : State, exec .init s = .next t → t.draws = s.draws + 1) ∧
    (∀ (b : Byte) (t : State), exec (.write b) s = .next t →
      t.draws = s.draws + 1 + if s.off.toNat = 63 then 1 else 0) ∧
    (∀ t : State, exec .result s = .next t →
      t.draws = s.draws + 1 + if s.off.toNat ≤ 55 then 1 else 2) ∧
    (∀ (secret : List Byte) (t : State), exec (.initHmac secret) s = .next t →
      t.draws = s.draws + 1 +
        if secret.length ≤ 64 then 1 else 1 + ((secret.length + 8) / 64 + 1) + 1) ∧
    (∀ t : State, exec .resultHmac s = .next t →
      t.draws = s.draws + 2 + (if s.off.toNat ≤ 55 then 3 else 4))

/-- A block of 64 bytes absorbed from a block boundary is compressed at its last byte, as the sixteen big-endian words of
the block, whatever MessageBuffer held before (40_compression.md R102; 20_memory.md R54, R58). -/
def Obligations.WholeBlockIsCompressedAtItsLastByte : Prop :=
  ∀ (s : State) (block : List Byte), s.off = 0 → block.length = 64 →
    (absorbAll block s).h = compress s.h (blockWords block) ∧ (absorbAll block s).off = 0 ∧
    ∀ n < 64, (absorbAll (block.take n) s).h = s.h

/-- Four lane writes assemble the big-endian word, whatever the word held; one lane write leaves the other three lanes
(20_memory.md R52, R54). -/
def Obligations.FourLaneWritesMakeTheWord : Prop :=
  (∀ (w : Word) (b0 b1 b2 b3 : Byte),
    laneWrite (laneWrite (laneWrite (laneWrite w 0 b0) 1 b1) 2 b2) 3 b3 = be32 b0 b1 b2 b3) ∧
  (∀ (w : Word) (b : Byte) (j : Fin 4),
    (laneWrite w j b).extractLsb' (24 - 8 * j.val) 8 = b ∧
    ∀ i : Fin 4, i ≠ j → (laneWrite w j b).extractLsb' (24 - 8 * i.val) 8 = w.extractLsb' (24 - 8 * i.val) 8)

/-- Digest byte `4*i + j` is bits `31-8j` down to `24-8j` of `H[i]` (20_memory.md R56). -/
def Obligations.DigestBytesAreBigEndian : Prop :=
  ∀ (h : Vector Word 5) (i : Fin 5) (j : Fin 4),
    (digestBytes h)[4 * i.val + j.val] = h[i].extractLsb' (24 - 8 * j.val) 8

/-- The length field: four zero bytes and the count times eight modulo `2^32`, most significant byte first; below
`2^29` bytes it is the 64-bit big-endian bit length (40_compression.md R117). For a count of `2^29` or more the four zero
bytes and the truncated value are the spec's own choice (D7, D8; U4), which the model follows (log entry 9). -/
def Obligations.LengthFieldIsTheBitLength : Prop :=
  (∀ cnt : BitVec 32, ∃ b4 b5 b6 b7 : Byte,
    lengthField cnt = [0, 0, 0, 0, b4, b5, b6, b7] ∧
    (b4 ++ b5 ++ b6 ++ b7 : BitVec 32).toNat = 8 * cnt.toNat % 2 ^ 32) ∧
  (∀ n : Nat, n < 2 ^ 29 → lengthField (BitVec.ofNat 32 n) = be64 (8 * n))

/-! ### The compression function -/

/-- The logical schedule: eighty words, the first sixteen the block's, each later one the rotated exclusive or of four
earlier ones (40_compression.md R106). -/
def Obligations.ScheduleRecurrence : Prop :=
  ∀ w : Vector Word 16, (schedule w).length = 80 ∧
    (∀ t : Fin 16, (schedule w).getD t 0 = w[t]) ∧
    (∀ t, 16 ≤ t → t < 80 →
      (schedule w).getD t 0 =
        ((schedule w).getD (t - 3) 0 ^^^ (schedule w).getD (t - 8) 0 ^^^ (schedule w).getD (t - 14) 0 ^^^
          (schedule w).getD (t - 16) 0).rotateLeft 1)

/-- The sixteen-word circular schedule of the source computes the same function, and leaves `w_64 .. w_79` in the
buffer (40_compression.md R107). -/
def Obligations.CircularScheduleIsEquivalent : Prop :=
  ∀ (h : Vector Word 5) (w : Vector Word 16), compressCircular h w = compress h w ∧
    ∀ i : Fin 16, (circularRounds h w).1[i] = (schedule w).getD (64 + i.val) 0

/-- The other presentations of the round functions compute the same words, and the single-bit truth table of the three
functions (40_compression.md R113). -/
def Obligations.RoundFunctionForms : Prop :=
  ∀ b c d : Word,
    choose b c d = (b &&& c) ||| (~~~b &&& d) ∧
    majority b c d = (b &&& c) ||| (b &&& d) ||| (c &&& d) ∧
    majority b c d = (b &&& c) ^^^ (b &&& d) ^^^ (c &&& d) ∧
    ∀ i : Nat, i < 32 →
      (choose b c d).getLsbD i = (if b.getLsbD i then c.getLsbD i else d.getLsbD i) ∧
      (parity b c d).getLsbD i = ((b.getLsbD i ^^ c.getLsbD i) ^^ d.getLsbD i) ∧
      (majority b c d).getLsbD i = ((b.getLsbD i && c.getLsbD i) || (d.getLsbD i && (b.getLsbD i || c.getLsbD i)))

/-- The rotations the engine uses move the bits that leave at bit 31 to bit 0, and `rotl(x, 30)` is a right rotation
by 2 (40_compression.md R114; 00_scope.md R10). -/
def Obligations.RotationsAreCyclic : Prop :=
  ∀ x : Word, rotl x 1 = x.rotateLeft 1 ∧ rotl x 5 = x.rotateLeft 5 ∧ rotl x 30 = x.rotateRight 2

/-! ### The open session and the invariant -/

/-- The invariant of an open session: INIT opens the session of no bytes, WRITE adds its byte to it, INITHMAC opens the
session of the 64 bytes `K[i] ^ 0x36` (10_state.md R34). -/
def Obligations.SessionFollowsTheWrittenBytes : Prop :=
  ∀ s : State,
    (∃ t, exec .init s = .next t ∧ SessionOf [] t) ∧
    (∀ (m : List Byte) (b : Byte), s.mode = .hash ∨ s.mode = .hmac → SessionOf m s →
      ∃ t, exec (.write b) s = .next t ∧ SessionOf (m ++ [b]) t) ∧
    (∀ secret : List Byte, ∃ t, exec (.initHmac secret) s = .next t ∧
      SessionOf (t.k.toList.map (· ^^^ 0x36)) t)

/-- Every step keeps the invariant, from every state that meets it: an open session stands where its bytes put it, an
HMAC session began with the current key block, a finished one has OFF 0 and DIGEST at the end of the responses
(10_state.md R26, R34; 40_compression.md R121). -/
def Obligations.InvariantIsKeptByEveryStep : Prop :=
  ∀ s t : State, Inv s → step s = .next t → Inv t

/-- The invariant holds at reset (10_state.md R34, R36). -/
def Obligations.InvariantHoldsAtReset : Prop := Inv State.reset

/-! ### Sessions -/

/-- A plain hash session on the command stream, from any state: one 0x01 per WRITE and then the twenty bytes of the
SHA-1 of the message, for every message below `2^29` bytes; key buffer and inner hash untouched
(41_hasher_commands.md R148; 40_compression.md R122). -/
def Obligations.PlainSessionComputesSha1 : Prop :=
  ∀ (s : State) (m rest : List Byte), m.length < 2 ^ 29 →
    s.cmd = encodeAll (sha1Program m) ++ rest →
    ∃ t : State, run (m.length + 2) s = .next t ∧
      t.resp = s.resp ++ List.replicate m.length 0x01 ++ (sha1 m).toList ∧
      t.dg = sha1 m ∧ t.cmd = rest ∧ t.mode = .done ∧ t.k = s.k ∧ t.ih = s.ih

/-- A plain hash session of any length, from any state: one 0x01 per WRITE and then the digest bytes of the compression
chain over the message and its padding with the truncated length field (40_compression.md R119). From `2^29` bytes on the
value rests on the spec's decisions D7 and D8 (log entry 9). -/
def Obligations.SessionOfAnyLengthComputesTheChain : Prop :=
  ∀ (s : State) (m : List Byte),
    ∃ t : State, runProgram (sha1Program m) s = .next t ∧
      t.resp = s.resp ++ List.replicate m.length 0x01 ++ (engineDigest m).toList ∧
      t.dg = engineDigest m ∧ t.mode = .done

/-- An HMAC session on the command stream, from any state: one 0x01 per WRITE and then the twenty bytes of
`SHA1((Kb ^ opad64) ‖ SHA1((Kb ^ ipad64) ‖ m))` (42_hmac_commands.md R168). The empty message is included: that it is
defined is the spec's decision D15 (R166), which the model follows (log entry 10). -/
def Obligations.HmacSessionComputesHmac : Prop :=
  ∀ (s : State) (secret m rest : List Byte), secret.length ≤ 65535 → 64 + m.length < 2 ^ 29 →
    s.cmd = encodeAll (hmacProgram secret m) ++ rest →
    ∃ t : State, run (m.length + 2) s = .next t ∧
      t.resp = s.resp ++ List.replicate m.length 0x01 ++ (hmac secret m).toList ∧
      t.dg = hmac secret m ∧ t.cmd = rest ∧ t.mode = .done ∧ t.k = keyBlock secret

/-- The source's known answers, by the hash as a function: the empty input, "abc", and RFC 2202 case 1
(40_compression.md R122; 42_hmac_commands.md R169). -/
def Obligations.KnownAnswers : Prop :=
  sha1 [] = #v[0xda, 0x39, 0xa3, 0xee, 0x5e, 0x6b, 0x4b, 0x0d, 0x32, 0x55, 0xbf, 0xef, 0x95, 0x60, 0x18, 0x90, 0xaf,
    0xd8, 0x07, 0x09] ∧
  sha1 [0x61, 0x62, 0x63] = #v[0xa9, 0x99, 0x3e, 0x36, 0x47, 0x06, 0x81, 0x6a, 0xba, 0x3e, 0x25, 0x71, 0x78, 0x50, 0xc2,
    0x6c, 0x9c, 0xd0, 0xd8, 0x9d] ∧
  hmac (List.replicate 20 0x0b) [0x48, 0x69, 0x20, 0x54, 0x68, 0x65, 0x72, 0x65] = #v[0xb6, 0x17, 0x31, 0x86, 0x55, 0x05,
    0x72, 0x64, 0xe2, 0x8b, 0xc0, 0xb6, 0xfb, 0x37, 0x8c, 0x8e, 0xf1, 0x46, 0xbe, 0x00]

/-- Idempotent re-initialisation: the same write sequence after a fresh INIT answers the same twice in a row
(41_hasher_commands.md R149). -/
def Obligations.SameSessionTwiceAnswersTheSame : Prop :=
  ∀ (s : State) (m : List Byte), ∃ t : State, ∃ answer : List Byte,
    runProgram (sha1Program m ++ sha1Program m) s = .next t ∧
    answer.length = m.length + 20 ∧ t.resp = s.resp ++ answer ++ answer

/-! ### What the spec leaves unspecified cannot be seen -/

/-- Two states that agree on the streams, on MODE, on the Hasher's fields and pending lanes while a session is open, on
the key block while an HMAC session is open and on DIGEST while it is valid, answer alike at every step and still agree:
no response depends on MessageBuffer's residue, on H after a finalize, on the inner hash, on a late DIGEST or on a free
value (20_memory.md R58; 70_reset_and_hazards.md R221; 93_implementation_defined.md U5). -/
def Obligations.UnspecifiedContentsAreUnobservable : Prop :=
  ∀ s t : State, SameVisible s t → sameOutcome (step s) (step t)

/-- No register content after reset can reach a response: from any unprimed state, whatever its registers hold, every
run answers as the run from reset with the same streams (70_reset_and_hazards.md R221; 10_state.md R36). So no claim
about responses rests on the model's reset values (log entry 1). -/
def Obligations.ResetContentsAreUnobservable : Prop :=
  ∀ (s : State) (n : Nat), s.mode = .unprimed →
    sameOutcome (run n s) (run n { State.reset with cmd := s.cmd, resp := s.resp })

/-! ### The host's TOTP procedure -/

/-- A code is always exactly six ASCII digits, and read as a decimal number it is the truncated value modulo 1,000,000
(45_totp_host.md R185, R186). -/
def Obligations.CodeIsSixDigits : Prop :=
  ∀ d : Vector Byte 20, (codeOfDigest d).length = 6 ∧
    (∀ c ∈ codeOfDigest d, 0x30 ≤ c.toNat ∧ c.toNat ≤ 0x39) ∧
    (codeOfDigest d).foldl (fun acc c => 10 * acc + (c.toNat - 0x30)) 0 = (truncateDigest d).toNat % 1000000

/-- Dynamic truncation: the offset is the low four bits of the last digest byte, and the value is the big-endian value of
the four bytes from there with its top bit cleared, so it is below `2^31` (45_totp_host.md R184). -/
def Obligations.TruncationReadsFourBytes : Prop :=
  ∀ d : Vector Byte 20,
    truncationOffset d = d[19].toNat % 16 ∧
    (truncateDigest d).toNat =
      (2 ^ 24 * (d.toList.getD (d[19].toNat % 16) 0).toNat + 2 ^ 16 * (d.toList.getD (d[19].toNat % 16 + 1) 0).toNat +
        2 ^ 8 * (d.toList.getD (d[19].toNat % 16 + 2) 0).toNat + (d.toList.getD (d[19].toNat % 16 + 3) 0).toNat) % 2 ^ 31

/-- The moving factor is the eight-byte big-endian form of the step count (45_totp_host.md R182). -/
def Obligations.MovingFactorIsBigEndian : Prop :=
  ∀ steps : BitVec 64, (movingFactor steps).length = 8 ∧
    (movingFactor steps).foldl (fun acc c => 256 * acc + c.toNat) 0 = steps.toNat

/-- `getCode` on an engine that settles, whatever session it was in: the code of the HMAC of the moving factor, for every
secret below `2^29` bytes, also one that is too long for INITHMAC and that the host hashes first (30_encoding.md R78); the
host has then read every response, and the engine's streams are empty (45_totp_host.md R180 to R186; 20_memory.md R61).
On an engine that does not settle there is no code (the model's choice, log entry 24). -/
def Obligations.GetCodeTruncatesTheHmac : Prop :=
  ∀ (cfg : Totp) (timestamp : BitVec 64) (s : State),
    (cfg.timeStep ≠ 0 → cfg.secret.length < 2 ^ 29 → Settles s →
      ∃ t, getCode cfg timestamp s =
          some (codeOfDigest (hmac cfg.secret (movingFactor (timestamp / cfg.timeStep))), t) ∧
        t.cmd = [] ∧ t.resp = [] ∧ t.mode = .done) ∧
    (¬ Settles s → getCode cfg timestamp s = none)

/-- Timestamps in the same step give the same code, on any engines that settle (45_totp_host.md R187); a zero time step
has no value (R181; log entry 16). -/
def Obligations.SameStepSameCode : Prop :=
  ∀ (cfg : Totp) (t1 t2 : BitVec 64) (s1 s2 : State), cfg.secret.length < 2 ^ 29 → Settles s1 → Settles s2 →
    t1.toNat / cfg.timeStep.toNat = t2.toNat / cfg.timeStep.toNat →
    (getCode cfg t1 s1).map Prod.fst = (getCode cfg t2 s2).map Prod.fst ∧
    (getCode cfg t1 s1 = none ↔ cfg.timeStep = 0)
end

