-- ==== Sys2Proof/Laws/State.lean ====
section
/-! SUPPORT. One lemma per field per single write of the state, true by rfl, so that no proof unfolds a record
update; and that the state is its fields. -/

namespace Sys2Proof.Machine

@[simp] theorem memWriteMb_h (p : BitVec 6) (b : Byte) (s : State) : (memWriteMb p b s).h = s.h := rfl
@[simp] theorem memWriteMb_w (p : BitVec 6) (b : Byte) (s : State) :
    (memWriteMb p b s).w = s.w.set (p.toNat / 4) (laneWrite s.w[p.toNat / 4] (p.toNat % 4) b) := rfl
@[simp] theorem memWriteMb_off (p : BitVec 6) (b : Byte) (s : State) : (memWriteMb p b s).off = s.off := rfl
@[simp] theorem memWriteMb_cnt (p : BitVec 6) (b : Byte) (s : State) : (memWriteMb p b s).cnt = s.cnt := rfl
@[simp] theorem memWriteMb_k (p : BitVec 6) (b : Byte) (s : State) : (memWriteMb p b s).k = s.k := rfl
@[simp] theorem memWriteMb_ih (p : BitVec 6) (b : Byte) (s : State) : (memWriteMb p b s).ih = s.ih := rfl
@[simp] theorem memWriteMb_dg (p : BitVec 6) (b : Byte) (s : State) : (memWriteMb p b s).dg = s.dg := rfl
@[simp] theorem memWriteMb_mode (p : BitVec 6) (b : Byte) (s : State) : (memWriteMb p b s).mode = s.mode := rfl
@[simp] theorem memWriteMb_cmd (p : BitVec 6) (b : Byte) (s : State) : (memWriteMb p b s).cmd = s.cmd := rfl
@[simp] theorem memWriteMb_resp (p : BitVec 6) (b : Byte) (s : State) : (memWriteMb p b s).resp = s.resp := rfl
@[simp] theorem memWriteMb_draws (p : BitVec 6) (b : Byte) (s : State) : (memWriteMb p b s).draws = s.draws := rfl

@[simp] theorem memWriteKb_h (i : Nat) (b : Byte) (s : State) : (memWriteKb i b s).h = s.h := rfl
@[simp] theorem memWriteKb_w (i : Nat) (b : Byte) (s : State) : (memWriteKb i b s).w = s.w := rfl
@[simp] theorem memWriteKb_off (i : Nat) (b : Byte) (s : State) : (memWriteKb i b s).off = s.off := rfl
@[simp] theorem memWriteKb_cnt (i : Nat) (b : Byte) (s : State) : (memWriteKb i b s).cnt = s.cnt := rfl
@[simp] theorem memWriteKb_k (i : Nat) (b : Byte) (s : State) : (memWriteKb i b s).k = s.k.setIfInBounds i b := rfl
@[simp] theorem memWriteKb_ih (i : Nat) (b : Byte) (s : State) : (memWriteKb i b s).ih = s.ih := rfl
@[simp] theorem memWriteKb_dg (i : Nat) (b : Byte) (s : State) : (memWriteKb i b s).dg = s.dg := rfl
@[simp] theorem memWriteKb_mode (i : Nat) (b : Byte) (s : State) : (memWriteKb i b s).mode = s.mode := rfl
@[simp] theorem memWriteKb_cmd (i : Nat) (b : Byte) (s : State) : (memWriteKb i b s).cmd = s.cmd := rfl
@[simp] theorem memWriteKb_resp (i : Nat) (b : Byte) (s : State) : (memWriteKb i b s).resp = s.resp := rfl
@[simp] theorem memWriteKb_draws (i : Nat) (b : Byte) (s : State) : (memWriteKb i b s).draws = s.draws := rfl

@[simp] theorem memWriteIhb_h (i : Nat) (b : Byte) (s : State) : (memWriteIhb i b s).h = s.h := rfl
@[simp] theorem memWriteIhb_w (i : Nat) (b : Byte) (s : State) : (memWriteIhb i b s).w = s.w := rfl
@[simp] theorem memWriteIhb_off (i : Nat) (b : Byte) (s : State) : (memWriteIhb i b s).off = s.off := rfl
@[simp] theorem memWriteIhb_cnt (i : Nat) (b : Byte) (s : State) : (memWriteIhb i b s).cnt = s.cnt := rfl
@[simp] theorem memWriteIhb_k (i : Nat) (b : Byte) (s : State) : (memWriteIhb i b s).k = s.k := rfl
@[simp] theorem memWriteIhb_ih (i : Nat) (b : Byte) (s : State) :
    (memWriteIhb i b s).ih = s.ih.setIfInBounds i b := rfl
@[simp] theorem memWriteIhb_dg (i : Nat) (b : Byte) (s : State) : (memWriteIhb i b s).dg = s.dg := rfl
@[simp] theorem memWriteIhb_mode (i : Nat) (b : Byte) (s : State) : (memWriteIhb i b s).mode = s.mode := rfl
@[simp] theorem memWriteIhb_cmd (i : Nat) (b : Byte) (s : State) : (memWriteIhb i b s).cmd = s.cmd := rfl
@[simp] theorem memWriteIhb_resp (i : Nat) (b : Byte) (s : State) : (memWriteIhb i b s).resp = s.resp := rfl
@[simp] theorem memWriteIhb_draws (i : Nat) (b : Byte) (s : State) : (memWriteIhb i b s).draws = s.draws := rfl

@[simp] theorem setOff_h (v : BitVec 6) (s : State) : (setOff v s).h = s.h := rfl
@[simp] theorem setOff_w (v : BitVec 6) (s : State) : (setOff v s).w = s.w := rfl
@[simp] theorem setOff_off (v : BitVec 6) (s : State) : (setOff v s).off = v := rfl
@[simp] theorem setOff_cnt (v : BitVec 6) (s : State) : (setOff v s).cnt = s.cnt := rfl
@[simp] theorem setOff_k (v : BitVec 6) (s : State) : (setOff v s).k = s.k := rfl
@[simp] theorem setOff_ih (v : BitVec 6) (s : State) : (setOff v s).ih = s.ih := rfl
@[simp] theorem setOff_dg (v : BitVec 6) (s : State) : (setOff v s).dg = s.dg := rfl
@[simp] theorem setOff_mode (v : BitVec 6) (s : State) : (setOff v s).mode = s.mode := rfl
@[simp] theorem setOff_cmd (v : BitVec 6) (s : State) : (setOff v s).cmd = s.cmd := rfl
@[simp] theorem setOff_resp (v : BitVec 6) (s : State) : (setOff v s).resp = s.resp := rfl
@[simp] theorem setOff_draws (v : BitVec 6) (s : State) : (setOff v s).draws = s.draws := rfl

@[simp] theorem countByte_h (s : State) : (countByte s).h = s.h := rfl
@[simp] theorem countByte_w (s : State) : (countByte s).w = s.w := rfl
@[simp] theorem countByte_off (s : State) : (countByte s).off = s.off := rfl
@[simp] theorem countByte_cnt (s : State) : (countByte s).cnt = s.cnt + 1 := rfl
@[simp] theorem countByte_k (s : State) : (countByte s).k = s.k := rfl
@[simp] theorem countByte_ih (s : State) : (countByte s).ih = s.ih := rfl
@[simp] theorem countByte_dg (s : State) : (countByte s).dg = s.dg := rfl
@[simp] theorem countByte_mode (s : State) : (countByte s).mode = s.mode := rfl
@[simp] theorem countByte_cmd (s : State) : (countByte s).cmd = s.cmd := rfl
@[simp] theorem countByte_resp (s : State) : (countByte s).resp = s.resp := rfl
@[simp] theorem countByte_draws (s : State) : (countByte s).draws = s.draws := rfl

@[simp] theorem setMode_h (m : Mode) (s : State) : (setMode m s).h = s.h := rfl
@[simp] theorem setMode_w (m : Mode) (s : State) : (setMode m s).w = s.w := rfl
@[simp] theorem setMode_off (m : Mode) (s : State) : (setMode m s).off = s.off := rfl
@[simp] theorem setMode_cnt (m : Mode) (s : State) : (setMode m s).cnt = s.cnt := rfl
@[simp] theorem setMode_k (m : Mode) (s : State) : (setMode m s).k = s.k := rfl
@[simp] theorem setMode_ih (m : Mode) (s : State) : (setMode m s).ih = s.ih := rfl
@[simp] theorem setMode_dg (m : Mode) (s : State) : (setMode m s).dg = s.dg := rfl
@[simp] theorem setMode_mode (m : Mode) (s : State) : (setMode m s).mode = m := rfl
@[simp] theorem setMode_cmd (m : Mode) (s : State) : (setMode m s).cmd = s.cmd := rfl
@[simp] theorem setMode_resp (m : Mode) (s : State) : (setMode m s).resp = s.resp := rfl
@[simp] theorem setMode_draws (m : Mode) (s : State) : (setMode m s).draws = s.draws := rfl

@[simp] theorem takeDigest_h (s : State) : (takeDigest s).h = s.h := rfl
@[simp] theorem takeDigest_w (s : State) : (takeDigest s).w = s.w := rfl
@[simp] theorem takeDigest_off (s : State) : (takeDigest s).off = s.off := rfl
@[simp] theorem takeDigest_cnt (s : State) : (takeDigest s).cnt = s.cnt := rfl
@[simp] theorem takeDigest_k (s : State) : (takeDigest s).k = s.k := rfl
@[simp] theorem takeDigest_ih (s : State) : (takeDigest s).ih = s.ih := rfl
@[simp] theorem takeDigest_dg (s : State) : (takeDigest s).dg = digestBytes s.h := rfl
@[simp] theorem takeDigest_mode (s : State) : (takeDigest s).mode = s.mode := rfl
@[simp] theorem takeDigest_cmd (s : State) : (takeDigest s).cmd = s.cmd := rfl
@[simp] theorem takeDigest_resp (s : State) : (takeDigest s).resp = s.resp := rfl
@[simp] theorem takeDigest_draws (s : State) : (takeDigest s).draws = s.draws := rfl

@[simp] theorem clobberHash_h (s : State) : (clobberHash s).h = Config.freeHashState s.draws s.h s.w := rfl
@[simp] theorem clobberHash_w (s : State) : (clobberHash s).w = s.w := rfl
@[simp] theorem clobberHash_off (s : State) : (clobberHash s).off = s.off := rfl
@[simp] theorem clobberHash_cnt (s : State) : (clobberHash s).cnt = s.cnt := rfl
@[simp] theorem clobberHash_k (s : State) : (clobberHash s).k = s.k := rfl
@[simp] theorem clobberHash_ih (s : State) : (clobberHash s).ih = s.ih := rfl
@[simp] theorem clobberHash_dg (s : State) : (clobberHash s).dg = s.dg := rfl
@[simp] theorem clobberHash_mode (s : State) : (clobberHash s).mode = s.mode := rfl
@[simp] theorem clobberHash_cmd (s : State) : (clobberHash s).cmd = s.cmd := rfl
@[simp] theorem clobberHash_resp (s : State) : (clobberHash s).resp = s.resp := rfl
@[simp] theorem clobberHash_draws (s : State) : (clobberHash s).draws = s.draws + 1 := rfl

@[simp] theorem clobberDigest_h (s : State) : (clobberDigest s).h = s.h := rfl
@[simp] theorem clobberDigest_w (s : State) : (clobberDigest s).w = s.w := rfl
@[simp] theorem clobberDigest_off (s : State) : (clobberDigest s).off = s.off := rfl
@[simp] theorem clobberDigest_cnt (s : State) : (clobberDigest s).cnt = s.cnt := rfl
@[simp] theorem clobberDigest_k (s : State) : (clobberDigest s).k = s.k := rfl
@[simp] theorem clobberDigest_ih (s : State) : (clobberDigest s).ih = s.ih := rfl
@[simp] theorem clobberDigest_dg (s : State) : (clobberDigest s).dg = Config.freeDigest s.draws s.dg s.h s.w := rfl
@[simp] theorem clobberDigest_mode (s : State) : (clobberDigest s).mode = s.mode := rfl
@[simp] theorem clobberDigest_cmd (s : State) : (clobberDigest s).cmd = s.cmd := rfl
@[simp] theorem clobberDigest_resp (s : State) : (clobberDigest s).resp = s.resp := rfl
@[simp] theorem clobberDigest_draws (s : State) : (clobberDigest s).draws = s.draws + 1 := rfl

@[simp] theorem hashBlock_h (s : State) : (hashBlock s).h = compress s.h s.w := rfl
@[simp] theorem hashBlock_w (s : State) : (hashBlock s).w = Config.freeMessageBuffer s.draws s.h s.w := rfl
@[simp] theorem hashBlock_off (s : State) : (hashBlock s).off = s.off := rfl
@[simp] theorem hashBlock_cnt (s : State) : (hashBlock s).cnt = s.cnt := rfl
@[simp] theorem hashBlock_k (s : State) : (hashBlock s).k = s.k := rfl
@[simp] theorem hashBlock_ih (s : State) : (hashBlock s).ih = s.ih := rfl
@[simp] theorem hashBlock_dg (s : State) : (hashBlock s).dg = s.dg := rfl
@[simp] theorem hashBlock_mode (s : State) : (hashBlock s).mode = s.mode := rfl
@[simp] theorem hashBlock_cmd (s : State) : (hashBlock s).cmd = s.cmd := rfl
@[simp] theorem hashBlock_resp (s : State) : (hashBlock s).resp = s.resp := rfl
@[simp] theorem hashBlock_draws (s : State) : (hashBlock s).draws = s.draws + 1 := rfl

@[simp] theorem initHasher_h (s : State) : (initHasher s).h = Config.iv := rfl
@[simp] theorem initHasher_w (s : State) : (initHasher s).w = s.w := rfl
@[simp] theorem initHasher_off (s : State) : (initHasher s).off = 0 := rfl
@[simp] theorem initHasher_cnt (s : State) : (initHasher s).cnt = 0 := rfl
@[simp] theorem initHasher_k (s : State) : (initHasher s).k = s.k := rfl
@[simp] theorem initHasher_ih (s : State) : (initHasher s).ih = s.ih := rfl
@[simp] theorem initHasher_dg (s : State) : (initHasher s).dg = s.dg := rfl
@[simp] theorem initHasher_mode (s : State) : (initHasher s).mode = s.mode := rfl
@[simp] theorem initHasher_cmd (s : State) : (initHasher s).cmd = s.cmd := rfl
@[simp] theorem initHasher_resp (s : State) : (initHasher s).resp = s.resp := rfl
@[simp] theorem initHasher_draws (s : State) : (initHasher s).draws = s.draws := rfl

@[simp] theorem clearKey_h (s : State) : (clearKey s).h = s.h := rfl
@[simp] theorem clearKey_w (s : State) : (clearKey s).w = s.w := rfl
@[simp] theorem clearKey_off (s : State) : (clearKey s).off = s.off := rfl
@[simp] theorem clearKey_cnt (s : State) : (clearKey s).cnt = s.cnt := rfl
@[simp] theorem clearKey_k (s : State) : (clearKey s).k = Vector.replicate 64 0 := rfl
@[simp] theorem clearKey_ih (s : State) : (clearKey s).ih = s.ih := rfl
@[simp] theorem clearKey_dg (s : State) : (clearKey s).dg = s.dg := rfl
@[simp] theorem clearKey_mode (s : State) : (clearKey s).mode = s.mode := rfl
@[simp] theorem clearKey_cmd (s : State) : (clearKey s).cmd = s.cmd := rfl
@[simp] theorem clearKey_resp (s : State) : (clearKey s).resp = s.resp := rfl
@[simp] theorem clearKey_draws (s : State) : (clearKey s).draws = s.draws := rfl

@[simp] theorem respond_h (bytes : List Byte) (s : State) : (respond bytes s).h = s.h := rfl
@[simp] theorem respond_w (bytes : List Byte) (s : State) : (respond bytes s).w = s.w := rfl
@[simp] theorem respond_off (bytes : List Byte) (s : State) : (respond bytes s).off = s.off := rfl
@[simp] theorem respond_cnt (bytes : List Byte) (s : State) : (respond bytes s).cnt = s.cnt := rfl
@[simp] theorem respond_k (bytes : List Byte) (s : State) : (respond bytes s).k = s.k := rfl
@[simp] theorem respond_ih (bytes : List Byte) (s : State) : (respond bytes s).ih = s.ih := rfl
@[simp] theorem respond_dg (bytes : List Byte) (s : State) : (respond bytes s).dg = s.dg := rfl
@[simp] theorem respond_mode (bytes : List Byte) (s : State) : (respond bytes s).mode = s.mode := rfl
@[simp] theorem respond_cmd (bytes : List Byte) (s : State) : (respond bytes s).cmd = s.cmd := rfl
@[simp] theorem respond_resp (bytes : List Byte) (s : State) : (respond bytes s).resp = s.resp ++ bytes := rfl
@[simp] theorem respond_draws (bytes : List Byte) (s : State) : (respond bytes s).draws = s.draws := rfl

@[simp] theorem consume_h (rest : List Byte) (s : State) : (consume rest s).h = s.h := rfl
@[simp] theorem consume_w (rest : List Byte) (s : State) : (consume rest s).w = s.w := rfl
@[simp] theorem consume_off (rest : List Byte) (s : State) : (consume rest s).off = s.off := rfl
@[simp] theorem consume_cnt (rest : List Byte) (s : State) : (consume rest s).cnt = s.cnt := rfl
@[simp] theorem consume_k (rest : List Byte) (s : State) : (consume rest s).k = s.k := rfl
@[simp] theorem consume_ih (rest : List Byte) (s : State) : (consume rest s).ih = s.ih := rfl
@[simp] theorem consume_dg (rest : List Byte) (s : State) : (consume rest s).dg = s.dg := rfl
@[simp] theorem consume_mode (rest : List Byte) (s : State) : (consume rest s).mode = s.mode := rfl
@[simp] theorem consume_cmd (rest : List Byte) (s : State) : (consume rest s).cmd = rest := rfl
@[simp] theorem consume_resp (rest : List Byte) (s : State) : (consume rest s).resp = s.resp := rfl
@[simp] theorem consume_draws (rest : List Byte) (s : State) : (consume rest s).draws = s.draws := rfl

@[simp] theorem placeCommand_h (bytes : List Byte) (s : State) : (placeCommand bytes s).h = s.h := rfl
@[simp] theorem placeCommand_w (bytes : List Byte) (s : State) : (placeCommand bytes s).w = s.w := rfl
@[simp] theorem placeCommand_off (bytes : List Byte) (s : State) : (placeCommand bytes s).off = s.off := rfl
@[simp] theorem placeCommand_cnt (bytes : List Byte) (s : State) : (placeCommand bytes s).cnt = s.cnt := rfl
@[simp] theorem placeCommand_k (bytes : List Byte) (s : State) : (placeCommand bytes s).k = s.k := rfl
@[simp] theorem placeCommand_ih (bytes : List Byte) (s : State) : (placeCommand bytes s).ih = s.ih := rfl
@[simp] theorem placeCommand_dg (bytes : List Byte) (s : State) : (placeCommand bytes s).dg = s.dg := rfl
@[simp] theorem placeCommand_mode (bytes : List Byte) (s : State) : (placeCommand bytes s).mode = s.mode := rfl
@[simp] theorem placeCommand_cmd (bytes : List Byte) (s : State) : (placeCommand bytes s).cmd = bytes ++ s.cmd := rfl
@[simp] theorem placeCommand_resp (bytes : List Byte) (s : State) : (placeCommand bytes s).resp = s.resp := rfl
@[simp] theorem placeCommand_draws (bytes : List Byte) (s : State) : (placeCommand bytes s).draws = s.draws := rfl

@[simp] theorem hostSend_h (bytes : List Byte) (s : State) : (hostSend bytes s).h = s.h := rfl
@[simp] theorem hostSend_w (bytes : List Byte) (s : State) : (hostSend bytes s).w = s.w := rfl
@[simp] theorem hostSend_off (bytes : List Byte) (s : State) : (hostSend bytes s).off = s.off := rfl
@[simp] theorem hostSend_cnt (bytes : List Byte) (s : State) : (hostSend bytes s).cnt = s.cnt := rfl
@[simp] theorem hostSend_k (bytes : List Byte) (s : State) : (hostSend bytes s).k = s.k := rfl
@[simp] theorem hostSend_ih (bytes : List Byte) (s : State) : (hostSend bytes s).ih = s.ih := rfl
@[simp] theorem hostSend_dg (bytes : List Byte) (s : State) : (hostSend bytes s).dg = s.dg := rfl
@[simp] theorem hostSend_mode (bytes : List Byte) (s : State) : (hostSend bytes s).mode = s.mode := rfl
@[simp] theorem hostSend_cmd (bytes : List Byte) (s : State) : (hostSend bytes s).cmd = s.cmd ++ bytes := rfl
@[simp] theorem hostSend_resp (bytes : List Byte) (s : State) : (hostSend bytes s).resp = s.resp := rfl
@[simp] theorem hostSend_draws (bytes : List Byte) (s : State) : (hostSend bytes s).draws = s.draws := rfl

end Sys2Proof.Machine
end

