-- ==== Sys2Proof/Laws/Memory.lean ====
section
/-! SUPPORT. Byte lanes and the internal spaces: a read after a write to the same byte gives the byte written, and a
write leaves every other byte alone (20_memory.md R51, R52, R54). -/

namespace Sys2Proof.Machine

/-! ### Lanes of a word -/

theorem byteOf_laneWrite_same (w : Word) (b : Byte) {j : Nat} (hj : j < 4) : byteOf (laneWrite w j b) j = b := by
  unfold byteOf laneWrite
  ext i hi
  interval_cases j <;> simp <;> interval_cases i <;> simp

theorem byteOf_laneWrite_other (w : Word) (b : Byte) {i j : Nat} (hi : i < 4) (hj : j < 4) (h : i ≠ j) :
    byteOf (laneWrite w j b) i = byteOf w i := by
  unfold byteOf laneWrite
  ext n hn
  interval_cases j <;> interval_cases i <;> simp at h ⊢ <;> interval_cases n <;> simp

/-- A word is its four lanes, most significant first. -/
theorem be32_byteOf (w : Word) : be32 (byteOf w 0) (byteOf w 1) (byteOf w 2) (byteOf w 3) = w := by
  unfold be32 byteOf
  ext n hn
  simp
  interval_cases n <;> simp

/-! ### Bytes of the internal spaces -/

theorem memRead_memWriteMb (p : BitVec 6) (b : Byte) (s : State) (k : Fin 64) :
    memRead (memWriteMb p b s) (.mb k) = if k.val = p.toNat then b else memRead s (.mb k) := by
  have hp := p.isLt
  have hk := k.isLt
  simp only [memRead, memWriteMb_w]
  by_cases hw : p.toNat / 4 = k.val / 4
  · simp only [Vector.getElem_set, hw, ↓reduceIte]
    by_cases hj : k.val = p.toNat
    · simp only [← hj, ↓reduceIte]
      exact byteOf_laneWrite_same _ _ (by omega)
    · rw [if_neg hj]
      exact byteOf_laneWrite_other _ _ (by omega) (by omega) (by omega)
  · rw [if_neg (by omega : ¬ k.val = p.toNat)]
    simp [hw]

theorem memRead_memWriteMb_kb (p : BitVec 6) (b : Byte) (s : State) (i : Fin 64) :
    memRead (memWriteMb p b s) (.kb i) = memRead s (.kb i) := rfl

theorem memRead_memWriteMb_ihb (p : BitVec 6) (b : Byte) (s : State) (i : Fin 20) :
    memRead (memWriteMb p b s) (.ihb i) = memRead s (.ihb i) := rfl

theorem memRead_memWriteMb_dgb (p : BitVec 6) (b : Byte) (s : State) (i : Fin 20) :
    memRead (memWriteMb p b s) (.dgb i) = memRead s (.dgb i) := rfl

/-- Two states whose MessageBuffer lanes agree have the same MessageBuffer. -/
theorem w_ext {w v : Vector Word 16} (h : ∀ k : Fin 64, byteOf w[k.val / 4] (k.val % 4) = byteOf v[k.val / 4] (k.val % 4)) :
    w = v := by
  ext i hi
  have lane (j : Nat) (hj : j < 4) : byteOf w[i] j = byteOf v[i] j := by
    have := h ⟨4 * i + j, by omega⟩
    simpa only [show (4 * i + j) / 4 = i by omega, show (4 * i + j) % 4 = j by omega] using this
  rw [← be32_byteOf w[i], ← be32_byteOf v[i], lane 0, lane 1, lane 2, lane 3] <;> decide

/-! ### Key buffer and inner hash loops in closed form -/

theorem storeKey_k (bytes : List Byte) (i : Nat) (s : State) (j : Nat) (hj : j < 64) :
    (storeKey i bytes s).k[j] = if i ≤ j ∧ j < i + bytes.length then bytes.getD (j - i) 0 else s.k[j] := by
  induction bytes generalizing i s with
  | nil => simp [storeKey]
  | cons b bytes ih =>
    simp only [storeKey, ih, memWriteKb_k, Vector.getElem_setIfInBounds, List.length_cons]
    by_cases h1 : i = j
    · subst h1
      simp
    · by_cases h2 : i + 1 ≤ j ∧ j < i + 1 + bytes.length
      · rw [if_pos h2, if_pos (by omega), show j - i = (j - (i + 1)) + 1 by omega]
        simp
      · rw [if_neg h2, if_neg h1, if_neg (by omega)]

theorem storeKey_other (bytes : List Byte) (i : Nat) (s : State) :
    storeKey i bytes s = { s with k := (storeKey i bytes s).k } := by
  induction bytes generalizing i s with
  | nil => rfl
  | cons b bytes ih => rw [storeKey, ih]; rfl

theorem storeInner_ih (bytes : List Byte) (i : Nat) (s : State) (j : Nat) (hj : j < 20) :
    (storeInner i bytes s).ih[j] = if i ≤ j ∧ j < i + bytes.length then bytes.getD (j - i) 0 else s.ih[j] := by
  induction bytes generalizing i s with
  | nil => simp [storeInner]
  | cons b bytes ih =>
    simp only [storeInner, ih, memWriteIhb_ih, Vector.getElem_setIfInBounds, List.length_cons]
    by_cases h1 : i = j
    · subst h1
      simp
    · by_cases h2 : i + 1 ≤ j ∧ j < i + 1 + bytes.length
      · rw [if_pos h2, if_pos (by omega), show j - i = (j - (i + 1)) + 1 by omega]
        simp
      · rw [if_neg h2, if_neg h1, if_neg (by omega)]

theorem storeInner_other (bytes : List Byte) (i : Nat) (s : State) :
    storeInner i bytes s = { s with ih := (storeInner i bytes s).ih } := by
  induction bytes generalizing i s with
  | nil => rfl
  | cons b bytes ih => rw [storeInner, ih]; rfl

/-- Storing a whole digest into InnerHash. -/
theorem storeInner_digest (d : Vector Byte 20) (s : State) : storeInner 0 d.toList s = { s with ih := d } := by
  rw [storeInner_other]
  congr 1
  ext i hi
  rw [storeInner_ih _ _ _ _ hi]
  simp [hi]

end Sys2Proof.Machine
end

