-- ==== Sys2Proof/Laws/Absorb.lean ====
section
/-! SUPPORT. What ABSORB and the operations built on it can do: one equation per case, the fields each leaves alone,
and the padding loop in closed form (40_compression.md R101, R102, R115, R116). -/

namespace Sys2Proof.Machine

/-! ### ABSORB -/

/-- Inside a block: one lane and OFF. -/
theorem absorb_within {s : State} (b : Byte) (h : s.off ≠ 63) :
    absorb b s = setOff (s.off + 1) (memWriteMb s.off b s) := by
  have hne : s.off.toNat ≠ 63 := fun e => h (BitVec.eq_of_toNat_eq e)
  rw [absorb, if_neg]
  simp only [Config.blockLength]
  omega

/-- The last byte of a block: the lane, the compression, OFF back to 0. -/
theorem absorb_fills {s : State} (b : Byte) (h : s.off = 63) :
    absorb b s = setOff 0 (hashBlock (memWriteMb s.off b s)) := by
  rw [absorb, if_pos]
  rw [h]
  rfl

/-- Whatever ABSORB does, it does by one of the two cases. -/
theorem absorb_cases (b : Byte) (s : State) :
    (s.off ≠ 63 ∧ absorb b s = setOff (s.off + 1) (memWriteMb s.off b s)) ∨
      (s.off = 63 ∧ absorb b s = setOff 0 (hashBlock (memWriteMb s.off b s))) := by
  by_cases h : s.off = 63
  · exact .inr ⟨h, absorb_fills b h⟩
  · exact .inl ⟨h, absorb_within b h⟩

@[simp] theorem absorb_cnt (b : Byte) (s : State) : (absorb b s).cnt = s.cnt := by
  rcases absorb_cases b s with ⟨_, e⟩ | ⟨_, e⟩ <;> rw [e] <;> rfl

@[simp] theorem absorb_k (b : Byte) (s : State) : (absorb b s).k = s.k := by
  rcases absorb_cases b s with ⟨_, e⟩ | ⟨_, e⟩ <;> rw [e] <;> rfl

@[simp] theorem absorb_ih (b : Byte) (s : State) : (absorb b s).ih = s.ih := by
  rcases absorb_cases b s with ⟨_, e⟩ | ⟨_, e⟩ <;> rw [e] <;> rfl

@[simp] theorem absorb_dg (b : Byte) (s : State) : (absorb b s).dg = s.dg := by
  rcases absorb_cases b s with ⟨_, e⟩ | ⟨_, e⟩ <;> rw [e] <;> rfl

@[simp] theorem absorb_mode (b : Byte) (s : State) : (absorb b s).mode = s.mode := by
  rcases absorb_cases b s with ⟨_, e⟩ | ⟨_, e⟩ <;> rw [e] <;> rfl

@[simp] theorem absorb_cmd (b : Byte) (s : State) : (absorb b s).cmd = s.cmd := by
  rcases absorb_cases b s with ⟨_, e⟩ | ⟨_, e⟩ <;> rw [e] <;> rfl

@[simp] theorem absorb_resp (b : Byte) (s : State) : (absorb b s).resp = s.resp := by
  rcases absorb_cases b s with ⟨_, e⟩ | ⟨_, e⟩ <;> rw [e] <;> rfl

/-- OFF counts modulo 64, the block boundary included. -/
@[simp] theorem absorb_off (b : Byte) (s : State) : (absorb b s).off = s.off + 1 := by
  rcases absorb_cases b s with ⟨_, e⟩ | ⟨h, e⟩ <;> rw [e]
  · rfl
  · rw [h]
    rfl

/-- The draw counter advances by one per HASHBLOCK: when the byte fills the block. -/
theorem absorb_draws (b : Byte) (s : State) : (absorb b s).draws = s.draws + (s.off.toNat + 1) / 64 := by
  have hlt := s.off.isLt
  rcases absorb_cases b s with ⟨h, e⟩ | ⟨h, e⟩ <;> rw [e]
  · have hne : s.off.toNat ≠ 63 := fun e => h (BitVec.eq_of_toNat_eq e)
    show s.draws = _
    omega
  · rw [h]
    rfl

/-- Counting a byte and absorbing one do not meet (41_hasher_commands.md R143, "Order of the two steps"). -/
theorem absorb_countByte (b : Byte) (s : State) : absorb b (countByte s) = countByte (absorb b s) := by
  rcases absorb_cases b s with ⟨h, e⟩ | ⟨h, e⟩ <;> rw [e]
  · rw [absorb_within b (by simpa using h)]
    rfl
  · rw [absorb_fills b (by simpa using h)]
    rfl

/-! ### Sequences -/

@[simp] theorem absorbAll_nil (s : State) : absorbAll [] s = s := rfl

@[simp] theorem absorbAll_cons (b : Byte) (bytes : List Byte) (s : State) :
    absorbAll (b :: bytes) s = absorbAll bytes (absorb b s) := rfl

theorem absorbAll_append (xs ys : List Byte) (s : State) :
    absorbAll (xs ++ ys) s = absorbAll ys (absorbAll xs s) := by
  simp [absorbAll]

@[simp] theorem writeAll_nil (s : State) : writeAll [] s = s := rfl

@[simp] theorem writeAll_cons (b : Byte) (bytes : List Byte) (s : State) :
    writeAll (b :: bytes) s = writeAll bytes (writeByte b s) := rfl

theorem writeAll_append (xs ys : List Byte) (s : State) :
    writeAll (xs ++ ys) s = writeAll ys (writeAll xs s) := by
  simp [writeAll]

section
variable (bytes : List Byte) (s : State)

@[simp] theorem absorbAll_cnt : (absorbAll bytes s).cnt = s.cnt := by
  induction bytes generalizing s <;> simp [*]

@[simp] theorem absorbAll_k : (absorbAll bytes s).k = s.k := by
  induction bytes generalizing s <;> simp [*]

@[simp] theorem absorbAll_ih : (absorbAll bytes s).ih = s.ih := by
  induction bytes generalizing s <;> simp [*]

@[simp] theorem absorbAll_dg : (absorbAll bytes s).dg = s.dg := by
  induction bytes generalizing s <;> simp [*]

@[simp] theorem absorbAll_mode : (absorbAll bytes s).mode = s.mode := by
  induction bytes generalizing s <;> simp [*]

@[simp] theorem absorbAll_cmd : (absorbAll bytes s).cmd = s.cmd := by
  induction bytes generalizing s <;> simp [*]

@[simp] theorem absorbAll_resp : (absorbAll bytes s).resp = s.resp := by
  induction bytes generalizing s <;> simp [*]

@[simp] theorem absorbAll_off : (absorbAll bytes s).off = s.off + BitVec.ofNat 6 bytes.length := by
  induction bytes generalizing s with
  | nil => simp
  | cons b bytes ih => simp [ih, BitVec.ofNat_add, BitVec.add_assoc, BitVec.add_comm 1#6]

/-- A sequence of WRITEs absorbs the bytes and counts them. -/
theorem writeAll_eq : writeAll bytes s = { absorbAll bytes s with cnt := s.cnt + BitVec.ofNat 32 bytes.length } := by
  induction bytes generalizing s with
  | nil => simp
  | cons b bytes ih =>
    have swap (t : State) : absorbAll bytes (countByte t) = countByte (absorbAll bytes t) := by
      clear ih
      induction bytes generalizing t with
      | nil => rfl
      | cons c bytes ih' => rw [absorbAll_cons, absorb_countByte, ih', absorbAll_cons]
    rw [writeAll_cons, ih, writeByte, absorb_countByte, swap, absorbAll_cons]
    simp [countByte, BitVec.ofNat_add, BitVec.add_assoc, BitVec.add_comm 1#32]

@[simp] theorem writeAll_h : (writeAll bytes s).h = (absorbAll bytes s).h := by rw [writeAll_eq]

@[simp] theorem writeAll_w : (writeAll bytes s).w = (absorbAll bytes s).w := by rw [writeAll_eq]

@[simp] theorem writeAll_cnt : (writeAll bytes s).cnt = s.cnt + BitVec.ofNat 32 bytes.length := by rw [writeAll_eq]

@[simp] theorem writeAll_off : (writeAll bytes s).off = s.off + BitVec.ofNat 6 bytes.length := by
  rw [writeAll_eq]
  simp

@[simp] theorem writeAll_k : (writeAll bytes s).k = s.k := by rw [writeAll_eq]; simp

@[simp] theorem writeAll_ih : (writeAll bytes s).ih = s.ih := by rw [writeAll_eq]; simp

@[simp] theorem writeAll_dg : (writeAll bytes s).dg = s.dg := by rw [writeAll_eq]; simp

@[simp] theorem writeAll_mode : (writeAll bytes s).mode = s.mode := by rw [writeAll_eq]; simp

@[simp] theorem writeAll_cmd : (writeAll bytes s).cmd = s.cmd := by rw [writeAll_eq]; simp

@[simp] theorem writeAll_resp : (writeAll bytes s).resp = s.resp := by rw [writeAll_eq]; simp

@[simp] theorem writeAll_draws : (writeAll bytes s).draws = (absorbAll bytes s).draws := by rw [writeAll_eq]

end

/-! ### The padding loop -/

/-- Enough fuel lets the loop run until OFF is 56: it absorbs `(56 - OFF) mod 64` zero bytes (R116). -/
theorem padZeros_eq (fuel : Nat) (s : State) (hf : (120 - s.off.toNat) % 64 ≤ fuel) :
    padZeros fuel s = absorbAll (List.replicate ((120 - s.off.toNat) % 64) 0) s := by
  induction fuel generalizing s with
  | zero =>
    have h0 : (120 - s.off.toNat) % 64 = 0 := by omega
    simp [padZeros, h0]
  | succ fuel ih =>
    have hlt := s.off.isLt
    by_cases h : s.off = Config.padLenAt
    · rw [padZeros, if_pos h, h]
      rfl
    · have hne : s.off.toNat ≠ 56 := fun e => h (BitVec.eq_of_toNat_eq e)
      have hoff : (absorb 0 s).off.toNat = (s.off.toNat + 1) % 64 := by
        rw [absorb_off, BitVec.toNat_add]
        rfl
      rw [padZeros, if_neg h, ih _ (by rw [hoff]; omega), hoff,
        show (120 - s.off.toNat) % 64 = (120 - (s.off.toNat + 1) % 64) % 64 + 1 by omega, List.replicate_succ,
        absorbAll_cons]

@[simp] theorem lengthField_length (cnt : BitVec 32) : (lengthField cnt).length = 8 := rfl

/-- The bound in `pad` never cuts the loop short: it always ends at OFF = 56 (R115). -/
theorem padZeros_off (s : State) : (padZeros Config.blockLength s).off = Config.padLenAt := by
  have hlt := s.off.isLt
  rw [padZeros_eq _ _ (by simp only [Config.blockLength]; omega), absorbAll_off]
  apply BitVec.eq_of_toNat_eq
  rw [BitVec.toNat_add, List.length_replicate, BitVec.toNat_ofNat]
  show (s.off.toNat + (120 - s.off.toNat) % 64 % 64) % 64 = 56
  omega

/-- PAD absorbs some byte sequence; the frame of PAD is that of `absorbAll`. -/
theorem pad_absorbs (s : State) : ∃ bytes, pad s = absorbAll bytes s := by
  have hlt := (absorb Config.padMark s).off.isLt
  refine ⟨Config.padMark :: (List.replicate ((120 - (absorb Config.padMark s).off.toNat) % 64) 0 ++
    lengthField s.cnt), ?_⟩
  rw [absorbAll_cons, absorbAll_append, ← padZeros_eq Config.blockLength _ (by simp only [Config.blockLength]; omega), pad]
  congr 2
  rw [padZeros_eq _ _ (by simp only [Config.blockLength]; omega)]
  simp

@[simp] theorem pad_cnt (s : State) : (pad s).cnt = s.cnt := by
  obtain ⟨_, e⟩ := pad_absorbs s; rw [e]; simp

@[simp] theorem pad_k (s : State) : (pad s).k = s.k := by
  obtain ⟨_, e⟩ := pad_absorbs s; rw [e]; simp

@[simp] theorem pad_ih (s : State) : (pad s).ih = s.ih := by
  obtain ⟨_, e⟩ := pad_absorbs s; rw [e]; simp

@[simp] theorem pad_mode (s : State) : (pad s).mode = s.mode := by
  obtain ⟨_, e⟩ := pad_absorbs s; rw [e]; simp

@[simp] theorem pad_cmd (s : State) : (pad s).cmd = s.cmd := by
  obtain ⟨_, e⟩ := pad_absorbs s; rw [e]; simp

@[simp] theorem pad_resp (s : State) : (pad s).resp = s.resp := by
  obtain ⟨_, e⟩ := pad_absorbs s; rw [e]; simp

@[simp] theorem pad_off (s : State) : (pad s).off = 0 := by
  rw [pad, absorbAll_off, padZeros_off, lengthField_length]
  decide

/-! ### FINALIZE -/

@[simp] theorem finalize_dg (s : State) : (finalize s).dg = digestBytes (pad s).h := rfl

@[simp] theorem finalize_off (s : State) : (finalize s).off = 0 := by simp [finalize]

@[simp] theorem finalize_cnt (s : State) : (finalize s).cnt = s.cnt := by simp [finalize]

@[simp] theorem finalize_k (s : State) : (finalize s).k = s.k := by simp [finalize]

@[simp] theorem finalize_ih (s : State) : (finalize s).ih = s.ih := by simp [finalize]

@[simp] theorem finalize_mode (s : State) : (finalize s).mode = s.mode := by simp [finalize]

@[simp] theorem finalize_cmd (s : State) : (finalize s).cmd = s.cmd := by simp [finalize]

@[simp] theorem finalize_resp (s : State) : (finalize s).resp = s.resp := by simp [finalize]

@[simp] theorem finalize_draws (s : State) : (finalize s).draws = (pad s).draws + 1 := by simp [finalize]

end Sys2Proof.Machine
end

