-- ==== Sys2Proof/Laws/Chain.lean ====
section
/-! SUPPORT. The compression chain over blocks, and the law that ties ABSORB to it: after any bytes absorbed from a
block boundary, H is the chain over the complete blocks and the lanes below OFF are the pending bytes
(10_state.md R34; 20_memory.md R58). -/

namespace Sys2Proof.Machine

/-! ### Words of a block -/

theorem byteOf_be32 (b0 b1 b2 b3 : Byte) {j : Nat} (hj : j < 4) :
    byteOf (be32 b0 b1 b2 b3) j = [b0, b1, b2, b3].getD j 0 := by
  unfold be32 byteOf
  ext n hn
  interval_cases j <;> simp <;> interval_cases n <;> simp

/-- Lane `k` of a block's words is byte `k` of the block. -/
theorem byteOf_blockWords (bytes : List Byte) (k : Fin 64) :
    byteOf (blockWords bytes)[k.val / 4] (k.val % 4) = bytes.getD k.val 0 := by
  have hk := k.isLt
  have hk4 : k.val = 4 * (k.val / 4) + k.val % 4 := by omega
  simp only [blockWords, Vector.getElem_ofFn]
  rw [byteOf_be32 _ _ _ _ (by omega)]
  have h4 : k.val % 4 < 4 := by omega
  generalize hj : k.val % 4 = j at *
  generalize k.val / 4 = i at *
  rw [hk4]
  interval_cases j <;> simp

/-! ### The chain -/

theorem chainBlocks_append (h : Vector Word 5) (q : Nat) (xs ys : List Byte) (hq : 64 * q ≤ xs.length) :
    chainBlocks h q (xs ++ ys) = chainBlocks h q xs := by
  induction q generalizing h xs with
  | zero => rfl
  | succ q ih =>
    simp only [chainBlocks]
    rw [List.take_append_of_le_length (by omega), List.drop_append_of_le_length (by omega)]
    exact ih _ _ (by rw [List.length_drop]; omega)

/-- The last block of a chain. -/
theorem chainBlocks_succ (h : Vector Word 5) (q : Nat) (xs : List Byte) :
    chainBlocks h (q + 1) xs = compress (chainBlocks h q xs) (blockWords ((xs.drop (64 * q)).take 64)) := by
  induction q generalizing h xs with
  | zero => rfl
  | succ q ih =>
    rw [chainBlocks, ih, chainBlocks, List.drop_drop, show 64 + 64 * q = 64 * (q + 1) by omega]

theorem chainBlocks_add (h : Vector Word 5) (p q : Nat) (xs : List Byte) :
    chainBlocks h (p + q) xs = chainBlocks (chainBlocks h p xs) q (xs.drop (64 * p)) := by
  induction p generalizing h xs with
  | zero => simp [chainBlocks]
  | succ p ih =>
    rw [show p + 1 + q = (p + q) + 1 by omega, chainBlocks, ih, chainBlocks, List.drop_drop,
      show 64 + 64 * p = 64 * (p + 1) by omega]

/-- Bytes that complete no block leave the chain alone. -/
theorem chain_append_pending (h : Vector Word 5) (xs ys : List Byte) (hl : xs.length % 64 + ys.length < 64) :
    chain h (xs ++ ys) = chain h xs := by
  rw [chain, chain, List.length_append, show (xs.length + ys.length) / 64 = xs.length / 64 by omega]
  exact chainBlocks_append _ _ _ _ (by omega)

/-- A chain over whole blocks continues from where they left H. -/
theorem chain_append_blocks (h : Vector Word 5) (xs ys : List Byte) (hl : xs.length % 64 = 0) :
    chain h (xs ++ ys) = chain (chain h xs) ys := by
  have hx : 64 * (xs.length / 64) = xs.length := by omega
  rw [chain, List.length_append, show (xs.length + ys.length) / 64 = xs.length / 64 + ys.length / 64 by omega,
    chainBlocks_add, chainBlocks_append _ _ _ _ (by omega), hx, List.drop_left, chain, chain]

/-- One whole block. -/
theorem chain_block (h : Vector Word 5) (xs : List Byte) (hl : xs.length = 64) :
    chain h xs = compress h (blockWords xs) := by
  rw [chain, hl, show 64 / 64 = 1 from rfl, chainBlocks, chainBlocks, List.take_of_length_le (by omega)]

/-! ### ABSORB follows the chain -/

/-- The Hasher after the bytes `m`, absorbed from a block boundary at which HashState was `h0`. -/
structure Absorbed (h0 : Vector Word 5) (m : List Byte) (s : State) : Prop where
  offset : s.off.toNat = m.length % 64
  hashed : s.h = chain h0 m
  pending : ∀ k : Fin 64, k.val < s.off.toNat → memRead s (.mb k) = m.getD (64 * (m.length / 64) + k.val) 0

theorem absorbed_nil {s : State} (h : s.off = 0) : Absorbed s.h [] s where
  offset := by rw [h]; rfl
  hashed := rfl
  pending k hk := by rw [h] at hk; exact absurd hk (Nat.not_lt_zero _)

/-- The lanes after `m` and one more byte `b`, before OFF moves. -/
theorem absorbed_lanes {h0 : Vector Word 5} {m : List Byte} {s : State} (a : Absorbed h0 m s) (b : Byte) (k : Fin 64)
    (hk : k.val ≤ s.off.toNat) :
    memRead (memWriteMb s.off b s) (.mb k) = (m ++ [b]).getD (64 * (m.length / 64) + k.val) 0 := by
  have ho := a.offset
  rw [memRead_memWriteMb]
  by_cases h : k.val = s.off.toNat
  · rw [if_pos h, h, ho, show 64 * (m.length / 64) + m.length % 64 = m.length by omega]
    simp
  · rw [if_neg h, a.pending k (by omega)]
    simp only [List.getD_eq_getElem?_getD]
    rw [List.getElem?_append_left (by omega)]

theorem absorbed_absorb {h0 : Vector Word 5} {m : List Byte} {s : State} (a : Absorbed h0 m s) (b : Byte) :
    Absorbed h0 (m ++ [b]) (absorb b s) := by
  have ho := a.offset
  have hlt := s.off.isLt
  have hlen : (m ++ [b]).length = m.length + 1 := by simp
  rcases absorb_cases b s with ⟨h, e⟩ | ⟨h, e⟩
  · have hne : s.off.toNat ≠ 63 := fun e => h (BitVec.eq_of_toNat_eq e)
    have hoff : (absorb b s).off.toNat = s.off.toNat + 1 := by
      rw [absorb_off, BitVec.toNat_add]
      show (s.off.toNat + 1) % 64 = _
      omega
    refine ⟨by rw [hoff, hlen]; omega, ?_, fun k hk => ?_⟩
    · rw [chain_append_pending _ _ _ (by simp only [List.length_singleton]; omega), e]
      exact a.hashed
    · rw [hoff] at hk
      rw [hlen, show (m.length + 1) / 64 = m.length / 64 by omega, ← absorbed_lanes a b k (by omega), e]
      rfl
  · have h63 : s.off.toNat = 63 := by rw [h]; rfl
    have hoff : (absorb b s).off.toNat = 0 := by rw [e]; rfl
    refine ⟨by rw [hoff, hlen]; omega, ?_, fun k hk => by omega⟩
    have hw : (memWriteMb s.off b s).w = blockWords (((m ++ [b]).drop (64 * (m.length / 64))).take 64) := by
      apply w_ext
      intro k
      rw [byteOf_blockWords]
      have := absorbed_lanes a b k (by omega)
      simp only [memRead] at this
      rw [this]
      simp only [List.getD_eq_getElem?_getD]
      rw [List.getElem?_take_of_lt k.isLt, List.getElem?_drop]
    rw [chain, hlen, show (m.length + 1) / 64 = m.length / 64 + 1 by omega, chainBlocks_succ, ← hw,
      chainBlocks_append _ _ _ _ (by omega), ← chain, ← a.hashed, e]
    rfl

theorem absorbed_absorbAll {h0 : Vector Word 5} {m : List Byte} {s : State} (a : Absorbed h0 m s) (bytes : List Byte) :
    Absorbed h0 (m ++ bytes) (absorbAll bytes s) := by
  induction bytes generalizing m s with
  | nil => simpa using a
  | cons b bytes ih =>
    have := ih (absorbed_absorb a b)
    rwa [List.append_assoc, List.singleton_append] at this

/-- Writing keeps the law: the count is not part of it. -/
theorem absorbed_writeAll {h0 : Vector Word 5} {m : List Byte} {s : State} (a : Absorbed h0 m s) (bytes : List Byte) :
    Absorbed h0 (m ++ bytes) (writeAll bytes s) := by
  have := absorbed_absorbAll a bytes
  rw [writeAll_eq]
  exact ⟨this.offset, this.hashed, this.pending⟩

/-- The Hasher's state writes of INIT open the chain at the constants. -/
theorem absorbed_initHasher (s : State) : Absorbed Config.iv [] (initHasher s) :=
  absorbed_nil (s := initHasher s) rfl

end Sys2Proof.Machine
end

