-- ==== Sys2Proof/Laws/Step.lean ====
section
/-! SUPPORT. The shapes of `exec` under the calling contract, runs one step at a time, and that no command looks at the
bytes that stand after it on the command stream. -/

namespace Sys2Proof.Machine

/-! ### Runs -/

@[simp] theorem run_zero (s : State) : run 0 s = .next s := rfl

theorem run_succ (n : Nat) (s : State) :
    run (n + 1) s =
      match step s with
      | .next t => run n t
      | .fault f => .fault f
      | .refused r => .refused r := by
  have h : Sys2Proof.core.step s = step s := rfl
  simp only [run, Host.Core.run, h]
  cases step s <;> rfl

/-! ### What `exec` answers where the contract lets the command run -/

theorem exec_init_eq (s : State) : exec .init s = .next (setMode .hash (clobberDigest (initHasher s))) := by
  cases h : s.mode <;> simp [exec, execInit, h, contractInit, underContract]

theorem exec_write_open (s : State) (b : Byte) (h : s.mode = .hash ∨ s.mode = .hmac) :
    exec (.write b) s = .next (setMode s.mode (respond [ackByte] (clobberDigest (writeByte b s)))) := by
  rcases h with h | h <;> simp [exec, execWrite, h, contractWrite, underContract]

theorem exec_result_hash (s : State) (h : s.mode = .hash) :
    exec .result s = .next (setMode .done (resultEffect s)) := by
  simp [exec, execResult, h, contractResult, underContract]

theorem exec_initHmac_eq (s : State) (secret : List Byte) :
    exec (.initHmac secret) s =
      .next (setMode .hmac (clobberDigest (keyedPass Config.ipad (buildKey secret s)))) := by
  cases h : s.mode <;> simp [exec, execInitHmac, h, contractInitHmac, underContract]

theorem exec_resultHmac_hmac (s : State) (h : s.mode = .hmac) :
    exec .resultHmac s = .next (setMode .done (resultHmacEffect s)) := by
  simp [exec, execResultHmac, h, contractResultHmac, underContract]

/-- A command that answers a next state is one the contract lets run. -/
theorem exec_next_cases {i : Instr} {s t : State} (h : exec i s = .next t) :
    i = .init ∨ (∃ b, i = .write b ∧ (s.mode = .hash ∨ s.mode = .hmac)) ∨ (i = .result ∧ s.mode = .hash) ∨
      (∃ secret, i = .initHmac secret) ∨ (i = .resultHmac ∧ s.mode = .hmac) := by
  cases i <;> cases hm : s.mode <;>
    simp [exec, execWrite, execResult, execResultHmac, hm, contractWrite, contractResult, contractResultHmac,
      underContract] at h ⊢

/-- No command is refused as a reserved opcode: that is decided at decode. -/
theorem exec_ne_reserved (i : Instr) (s : State) : exec i s ≠ .refused .reservedOpcode := by
  intro h
  cases i <;> cases hm : s.mode <;>
    simp [exec, execInit, execWrite, execResult, execInitHmac, execResultHmac, hm, contractInit, contractWrite,
      contractResult, contractInitHmac, contractResultHmac, underContract] at h

/-! ### The HMAC operations: frames and results -/

theorem innerFinalize_eq (s : State) : innerFinalize s = { finalize s with ih := (finalize s).dg } :=
  storeInner_digest _ _

/-- The two halves of an open session's state: the Hasher as INIT and the written bytes leave it. -/
theorem writeAll_initHasher (m : List Byte) (s : State) :
    Absorbed Config.iv m (writeAll m (initHasher s)) ∧
      (writeAll m (initHasher s)).cnt = BitVec.ofNat 32 m.length := by
  refine ⟨?_, by simp⟩
  have h := absorbed_writeAll (absorbed_initHasher s) m
  rwa [List.nil_append] at h

/-- What a keyed iteration leaves (42_hmac_commands.md R160, "State on completion"). -/
theorem keyedPass_spec (padByte : Byte) (s : State) :
    Absorbed Config.iv (xorPad padByte s.k.toList) (keyedPass padByte s) ∧ (keyedPass padByte s).cnt = 64 ∧
      (keyedPass padByte s).off = 0 := by
  have h := writeAll_initHasher (xorPad padByte s.k.toList) s
  have hl : (xorPad padByte s.k.toList).length = 64 := by simp [xorPad]
  refine ⟨h.1, by rw [keyedPass, h.2, hl]; rfl, ?_⟩
  rw [keyedPass, writeAll_off, hl]
  rfl

section
variable (secret : List Byte) (padByte : Byte) (s : State)

@[simp] theorem keyedPass_k : (keyedPass padByte s).k = s.k := by simp [keyedPass]
@[simp] theorem keyedPass_ih : (keyedPass padByte s).ih = s.ih := by simp [keyedPass]
@[simp] theorem keyedPass_mode : (keyedPass padByte s).mode = s.mode := by simp [keyedPass]
@[simp] theorem keyedPass_cmd : (keyedPass padByte s).cmd = s.cmd := by simp [keyedPass]
@[simp] theorem keyedPass_resp : (keyedPass padByte s).resp = s.resp := by simp [keyedPass]

@[simp] theorem preHash_k : (preHash secret s).k = s.k := by simp [preHash]
@[simp] theorem preHash_ih : (preHash secret s).ih = s.ih := by simp [preHash]
@[simp] theorem preHash_cmd : (preHash secret s).cmd = s.cmd := by simp [preHash]
@[simp] theorem preHash_resp : (preHash secret s).resp = s.resp := by simp [preHash]

@[simp] theorem buildKey_ih : (buildKey secret s).ih = s.ih := by
  unfold buildKey
  split <;> (try dsimp only) <;> rw [storeKey_other] <;> simp

@[simp] theorem buildKey_cmd : (buildKey secret s).cmd = s.cmd := by
  unfold buildKey
  split <;> (try dsimp only) <;> rw [storeKey_other] <;> simp

@[simp] theorem buildKey_resp : (buildKey secret s).resp = s.resp := by
  unfold buildKey
  split <;> (try dsimp only) <;> rw [storeKey_other] <;> simp

end

/-! ### The two streams beside a command -/

/-- The state with other streams. -/
def withStreams (cmd resp : List Byte) (s : State) : State := { s with cmd := cmd, resp := resp }

section
variable (c r : List Byte)

@[simp] theorem withStreams_mode (s : State) : (withStreams c r s).mode = s.mode := rfl
@[simp] theorem withStreams_cnt (s : State) : (withStreams c r s).cnt = s.cnt := rfl
@[simp] theorem withStreams_dg (s : State) : (withStreams c r s).dg = s.dg := rfl
@[simp] theorem withStreams_k (s : State) : (withStreams c r s).k = s.k := rfl
@[simp] theorem withStreams_ih (s : State) : (withStreams c r s).ih = s.ih := rfl

theorem memWriteMb_withStreams (p : BitVec 6) (b : Byte) (s : State) :
    memWriteMb p b (withStreams c r s) = withStreams c r (memWriteMb p b s) := rfl

theorem setOff_withStreams (v : BitVec 6) (s : State) : setOff v (withStreams c r s) = withStreams c r (setOff v s) := rfl

theorem hashBlock_withStreams (s : State) : hashBlock (withStreams c r s) = withStreams c r (hashBlock s) := rfl

theorem countByte_withStreams (s : State) : countByte (withStreams c r s) = withStreams c r (countByte s) := rfl

theorem takeDigest_withStreams (s : State) : takeDigest (withStreams c r s) = withStreams c r (takeDigest s) := rfl

theorem clobberHash_withStreams (s : State) : clobberHash (withStreams c r s) = withStreams c r (clobberHash s) := rfl

theorem clobberDigest_withStreams (s : State) : clobberDigest (withStreams c r s) = withStreams c r (clobberDigest s) := rfl

theorem initHasher_withStreams (s : State) : initHasher (withStreams c r s) = withStreams c r (initHasher s) := rfl

theorem clearKey_withStreams (s : State) : clearKey (withStreams c r s) = withStreams c r (clearKey s) := rfl

theorem setMode_withStreams (m : Mode) (s : State) : setMode m (withStreams c r s) = withStreams c r (setMode m s) := rfl

theorem memWriteKb_withStreams (i : Nat) (b : Byte) (s : State) :
    memWriteKb i b (withStreams c r s) = withStreams c r (memWriteKb i b s) := rfl

theorem memWriteIhb_withStreams (i : Nat) (b : Byte) (s : State) :
    memWriteIhb i b (withStreams c r s) = withStreams c r (memWriteIhb i b s) := rfl

theorem absorb_withStreams (b : Byte) (s : State) : absorb b (withStreams c r s) = withStreams c r (absorb b s) := by
  rcases absorb_cases b s with ⟨h, e⟩ | ⟨h, e⟩ <;> rw [e]
  · exact absorb_within (s := withStreams c r s) b h
  · exact absorb_fills (s := withStreams c r s) b h

theorem absorbAll_withStreams (bytes : List Byte) (s : State) :
    absorbAll bytes (withStreams c r s) = withStreams c r (absorbAll bytes s) := by
  induction bytes generalizing s with
  | nil => rfl
  | cons b bytes ih => rw [absorbAll_cons, absorb_withStreams, ih, absorbAll_cons]

theorem padZeros_withStreams (fuel : Nat) (s : State) :
    padZeros fuel (withStreams c r s) = withStreams c r (padZeros fuel s) := by
  induction fuel generalizing s with
  | zero => rfl
  | succ fuel ih =>
    by_cases h : s.off = Config.padLenAt
    · rw [padZeros, if_pos (show (withStreams c r s).off = _ from h), padZeros, if_pos h]
    · rw [padZeros, if_neg (show ¬ (withStreams c r s).off = _ from h), padZeros, if_neg h, absorb_withStreams, ih]

theorem pad_withStreams (s : State) : pad (withStreams c r s) = withStreams c r (pad s) := by
  simp only [pad, absorb_withStreams, padZeros_withStreams, absorbAll_withStreams, withStreams_cnt]

theorem finalize_withStreams (s : State) : finalize (withStreams c r s) = withStreams c r (finalize s) := by
  rw [finalize, pad_withStreams, takeDigest_withStreams, clobberHash_withStreams, finalize]

theorem writeByte_withStreams (b : Byte) (s : State) :
    writeByte b (withStreams c r s) = withStreams c r (writeByte b s) := by
  rw [writeByte, countByte_withStreams, absorb_withStreams, writeByte]

theorem writeAll_withStreams (bytes : List Byte) (s : State) :
    writeAll bytes (withStreams c r s) = withStreams c r (writeAll bytes s) := by
  induction bytes generalizing s with
  | nil => rfl
  | cons b bytes ih => rw [writeAll_cons, writeByte_withStreams, ih, writeAll_cons]

theorem storeKey_withStreams (bytes : List Byte) (i : Nat) (s : State) :
    storeKey i bytes (withStreams c r s) = withStreams c r (storeKey i bytes s) := by
  induction bytes generalizing i s with
  | nil => rfl
  | cons b bytes ih => rw [storeKey, memWriteKb_withStreams, ih, storeKey]

theorem storeInner_withStreams (bytes : List Byte) (i : Nat) (s : State) :
    storeInner i bytes (withStreams c r s) = withStreams c r (storeInner i bytes s) := by
  induction bytes generalizing i s with
  | nil => rfl
  | cons b bytes ih => rw [storeInner, memWriteIhb_withStreams, ih, storeInner]

theorem preHash_withStreams (secret : List Byte) (s : State) :
    preHash secret (withStreams c r s) = withStreams c r (preHash secret s) := by
  rw [preHash, initHasher_withStreams, writeAll_withStreams, finalize_withStreams, preHash]

theorem buildKey_withStreams (secret : List Byte) (s : State) :
    buildKey secret (withStreams c r s) = withStreams c r (buildKey secret s) := by
  simp only [buildKey, clearKey_withStreams, preHash_withStreams, withStreams_dg, storeKey_withStreams]
  split <;> rfl

theorem keyedPass_withStreams (padByte : Byte) (s : State) :
    keyedPass padByte (withStreams c r s) = withStreams c r (keyedPass padByte s) := by
  rw [keyedPass, initHasher_withStreams, writeAll_withStreams, withStreams_k, keyedPass]

theorem innerFinalize_withStreams (s : State) : innerFinalize (withStreams c r s) = withStreams c r (innerFinalize s) := by
  simp only [innerFinalize, finalize_withStreams, storeInner_withStreams, withStreams_dg]

theorem outerHash_withStreams (s : State) : outerHash (withStreams c r s) = withStreams c r (outerHash s) := by
  simp only [outerHash, keyedPass_withStreams, withStreams_ih, writeAll_withStreams, finalize_withStreams]

end

/-- An outcome with the next state put through a function. -/
def mapNext (f : State → State) : Host.Outcome State Fault Refusal → Host.Outcome State Fault Refusal
  | .next s => .next (f s)
  | .fault e => .fault e
  | .refused r => .refused r

theorem underContract_mapNext (f : State → State) (cell : Except Refusal Mode) (effect : Mode → State) :
    mapNext f (underContract cell effect) = underContract cell fun m => f (effect m) := by
  cases cell <;> rfl

theorem withStreams_quiet (c r : List Byte) {s t : State} (h : t.resp = s.resp) :
    withStreams c r t = withStreams c (r ++ t.resp.drop s.resp.length) t := by
  rw [h, List.drop_length, List.append_nil]

theorem withStreams_answer (c r answer : List Byte) (m : Mode) {s t : State} (h : t.resp = s.resp) :
    setMode m (respond answer (withStreams c r t)) =
      withStreams c (r ++ (setMode m (respond answer t)).resp.drop s.resp.length) (setMode m (respond answer t)) := by
  rw [setMode_resp, respond_resp, h, List.drop_left]
  rfl

/-- What a command does does not depend on the streams: it leaves the bytes that stand after it, and puts its own
response behind whatever waits to be read. -/
theorem exec_withStreams (i : Instr) (c r : List Byte) (s : State) :
    exec i (withStreams c r s) =
      mapNext (fun t => withStreams c (r ++ t.resp.drop s.resp.length) t) (exec i s) := by
  cases i with
  | init =>
    simp only [exec, execInit, underContract_mapNext, withStreams_mode, clobberDigest_withStreams,
      initHasher_withStreams, setMode_withStreams]
    congr 1
    funext m
    exact withStreams_quiet c r (by simp)
  | write b =>
    simp only [exec, execWrite, underContract_mapNext, withStreams_mode, clobberDigest_withStreams,
      writeByte_withStreams]
    congr 1
    funext m
    exact withStreams_answer c r _ m (by simp [writeByte])
  | result =>
    simp only [exec, execResult, underContract_mapNext, withStreams_mode, resultEffect, finalize_withStreams,
      withStreams_dg]
    congr 1
    funext m
    exact withStreams_answer c r _ m (by simp)
  | initHmac secret =>
    simp only [exec, execInitHmac, underContract_mapNext, withStreams_mode, buildKey_withStreams,
      keyedPass_withStreams, clobberDigest_withStreams, setMode_withStreams]
    congr 1
    funext m
    exact withStreams_quiet c r (by simp)
  | resultHmac =>
    simp only [exec, execResultHmac, underContract_mapNext, withStreams_mode, resultHmacEffect,
      innerFinalize_withStreams, outerHash_withStreams, withStreams_dg]
    congr 1
    funext m
    exact withStreams_answer c r _ m (by simp [outerHash, innerFinalize_eq])

/-- A command answers behind what is there. -/
theorem exec_resp {i : Instr} {s t : State} (h : exec i s = .next t) :
    s.resp ++ t.resp.drop s.resp.length = t.resp := by
  have e := exec_withStreams i s.cmd s.resp s
  rw [show withStreams s.cmd s.resp s = s from rfl, h] at e
  exact (congrArg State.resp (Host.Outcome.next.inj e)).symm

/-- What a command does does not depend on the bytes that stand after it on the stream, and it leaves them there. -/
theorem exec_consume (i : Instr) (rest : List Byte) (s : State) :
    exec i (consume rest s) = mapNext (consume rest) (exec i s) := by
  rw [show consume rest s = withStreams rest s.resp s from rfl, exec_withStreams]
  cases h : exec i s with
  | next t =>
    simp only [mapNext, exec_resp h]
    rfl
  | fault e => rfl
  | refused r => rfl

end Sys2Proof.Machine
end

