-- ==== Sys2Proof/Laws/Exchange.lean ====
section
/-! SUPPORT. Runs of several steps, and the host's exchange with an engine. -/

namespace Sys2Proof.Machine

/-- A good run goes on where it stands. -/
theorem run_add {n : Nat} {s t : State} (m : Nat) (h : run n s = .next t) : run (n + m) s = run m t := by
  induction n generalizing s with
  | zero => cases h; rw [Nat.zero_add]
  | succ n ih =>
    rw [Nat.add_right_comm, run_succ]
    rw [run_succ] at h
    cases hs : step s with
    | next u => rw [hs] at h; exact ih h
    | fault f => rw [hs] at h; cases h
    | refused r => rw [hs] at h; cases h

/-- What `settled` answers says all there is to say of the outcome. -/
theorem settled_eq_some {o : Host.Outcome State Fault Refusal} {u : State} :
    settled o = some u ↔ o = .next u ∧ u.cmd = [] := by
  cases o with
  | next s =>
    by_cases h : s.cmd = []
    · simp only [settled, if_pos h, Option.some.injEq, Host.Outcome.next.injEq]
      exact ⟨fun e => ⟨e, e ▸ h⟩, fun e => e.1⟩
    · simp only [settled, if_neg h, reduceCtorEq, Host.Outcome.next.injEq, false_iff]
      exact fun e => h (e.1 ▸ e.2)
  | fault f => cases f
  | refused r => simp [settled]

theorem settles_iff {s : State} : Settles s ↔ ∃ u, settled (serve s) = some u := by
  simp only [Settles, settled_eq_some]

/-- An idle engine settles as it stands. -/
theorem serve_idle {s : State} (h : s.cmd = []) : serve s = .next s := by
  rw [serve, h, List.length_nil, run_zero]

theorem hostRead_all (s : State) : hostRead s.resp.length s = (s.resp, { s with resp := [] }) := by
  simp [hostRead]

/-- No exchange with an engine that does not settle. -/
theorem exchange_unsettled (program : List Instr) {s : State} (h : ¬ Settles s) : exchange program s = none := by
  cases hs : settled (serve s) with
  | none => simp only [exchange, hs]
  | some u => exact absurd (settles_iff.mpr ⟨u, hs⟩) h

/-- An exchange with an engine that settles, by what it does with the bytes of the program. -/
theorem exchange_settled (program : List Instr) {s u t : State} (hs : settled (serve s) = some u)
    (ht : settled (serve (hostSend (encodeAll program) { u with resp := [] })) = some t) :
    exchange program s = some (t.resp, { t with resp := [] }) := by
  simp only [exchange, hs, hostRead_all, ht]

@[simp] theorem sendableSecret_short {secret : List Byte} (s : State) (h : secret.length ≤ Config.keyLenMax) :
    sendableSecret secret s = some (secret, s) := if_pos h

end Sys2Proof.Machine
end

