-- ==== Sys2Proof/Laws/PerInstr.lean ====
section
/-! SUPPORT. Statements made for every command, one lemma per constructor. -/

/-- A command's bytes begin with its opcode, and there are as many as its format has (30_encoding.md R71, R72). -/
def Sys2Proof.Laws.EncodedForm.Statement (i : Sys2Proof.Instr) : Prop :=
  (Sys2Proof.encode i).head? = some i.opcode ∧ (Sys2Proof.encode i).length = i.byteLength

namespace Sys2Proof.Laws

theorem EncodedForm.init : EncodedForm.Statement .init := ⟨rfl, rfl⟩

theorem EncodedForm.write (b : Byte) : EncodedForm.Statement (.write b) := ⟨rfl, rfl⟩

theorem EncodedForm.result : EncodedForm.Statement .result := ⟨rfl, rfl⟩

theorem EncodedForm.initHmac (secret : List Byte) : EncodedForm.Statement (.initHmac secret) :=
  ⟨rfl, by simp [encode, Instr.byteLength]; omega⟩

theorem EncodedForm.resultHmac : EncodedForm.Statement .resultHmac := ⟨rfl, rfl⟩

end Sys2Proof.Laws
end

