-- ==== Sys2Proof/Tests/Slice0.lean ====
section
/-! SUPPORT. Tests of the model against words and values the spec writes out, and for every statement that has
hypotheses a concrete state and operands that meet them. Expected values are those of 95_test_vectors.md (V and P
numbers) or of the rule named, never the model's own output. -/

namespace Sys2Proof.Tests

open Sys2Proof Sys2Proof.Machine

/-- A field of the next state, when there is one. -/
def nextField {α : Type} (f : State → α) : Host.Outcome State Fault Refusal → Option α
  | .next s => some (f s)
  | .fault _ => none
  | .refused _ => none

/-- The reason of a refusal. -/
def refusalOf : Host.Outcome State Fault Refusal → Option Refusal
  | .next _ => none
  | .fault _ => none
  | .refused r => some r

/-- An engine in a given MODE with a given Hasher. -/
def engine (mode : Mode) (h : Vector Word 5) (w : Vector Word 16) (off : BitVec 6) (cnt : BitVec 32) : State where
  h := h
  w := w
  off := off
  cnt := cnt
  k := Vector.replicate 64 0
  ih := Vector.replicate 20 0
  dg := Vector.replicate 20 0
  mode := mode
  cmd := []
  resp := []
  draws := 0

/-- Sixteen equal words. -/
def fill (w : Word) : Vector Word 16 := Vector.replicate 16 w

/-- The engine after INIT and WRITE of "abc" (P1), with a residue in the free lane. -/
def afterAbc : State := engine .hash Config.iv ((fill 0xFFFFFFFF).set 0 0x616263FF) 3 3

/-- The engine after INIT and 63 WRITEs of 0x61 (P4). -/
def after63 : State := engine .hash Config.iv ((fill 0x61616161).set 15 0x616161FF) 63 63

/-- The engine after INITHMAC of twenty 0x0b and the bytes of "Hi There" (V15). -/
def afterHiThere : State :=
  { engine .hmac #v[0x064C662A, 0xCC6ED1B0, 0x6CFA9AB0, 0x042F137F, 0xCEA570EB]
      (((fill 0xFFFFFFFF).set 0 0x48692054).set 1 0x68657265) 8 72 with
    k := Vector.ofFn fun i => if i.val < 20 then 0x0b else 0 }

/-- ASCII "12345678901234567890", the secret of V20 and V21. -/
def totpSecret : List Byte :=
  [0x31, 0x32, 0x33, 0x34, 0x35, 0x36, 0x37, 0x38, 0x39, 0x30, 0x31, 0x32, 0x33, 0x34, 0x35, 0x36, 0x37, 0x38, 0x39,
    0x30]

/-! ### Well-formedness -/

theorem test_wellFormed_refuses_long_secret : (Instr.initHmac (List.replicate 65536 0)).wellFormed = false := by
  rw [Instr.wellFormed, List.length_replicate]
  decide

theorem test_wellFormed_takes_longest_secret : (Instr.initHmac (List.replicate 65535 0)).wellFormed = true := by
  rw [Instr.wellFormed, List.length_replicate]
  decide

/-! ### Encoding (V22, R73 to R83) -/

theorem test_decode_init : decode [0b00000001] = .command .init [] := by decide

theorem test_decode_write : decode [0b00000010, 0b11111111] = .command (.write 0xff) [] := by decide

theorem test_decode_result : decode [0b00000011] = .command .result [] := by decide

theorem test_decode_initHmac :
    decode [0b00000100, 0b00000000, 0b00000100, 0x4a, 0x65, 0x66, 0x65] =
      .command (.initHmac [0x4a, 0x65, 0x66, 0x65]) [] := by decide

theorem test_decode_initHmac_empty : decode [0b00000100, 0, 0] = .command (.initHmac []) [] := by decide

theorem test_decode_resultHmac : decode [0b00000101] = .command .resultHmac [] := by decide

theorem test_decode_by_position :
    decode [0x02, 0x03, 0x03] = .command (.write 0x03) [0x03] ∧
    decode [0x04, 0x00, 0x02, 0x01, 0x03, 0x05] = .command (.initHmac [0x01, 0x03]) [0x05] := by decide

theorem test_decode_reserved :
    decode [0x00] = .reserved ∧ decode [0x06] = .reserved ∧ decode [0xff, 0x01] = .reserved := by decide

theorem test_decode_incomplete :
    decode [0x02] = .incomplete ∧ decode [0x04, 0x00] = .incomplete ∧
    decode [0x04, 0x00, 0x03, 0xaa, 0xbb] = .incomplete := by decide

theorem test_encode_bytes :
    encode (.write 0x61) = [0x02, 0x61] ∧ (encode (.initHmac (List.replicate 256 0))).take 3 = [0x04, 0x01, 0x00] := by
  decide +kernel

theorem test_tableWord_each_row :
    decodeTableWord 8 0x01 = some .init ∧ decodeTableWord 16 0x6102 = some (.write 0x61) ∧
    decodeTableWord 8 0x03 = some .result ∧ decodeTableWord 24 0x000004 = some (.initHmac []) ∧
    decodeTableWord 24 0x020004 = some (.initHmac [0, 0]) ∧ decodeTableWord 8 0x05 = some .resultHmac := by decide

theorem test_tableWord_operands_of_zero :
    decodeTableWord 8 0x02 = some (.write 0) ∧ decodeTableWord 8 0x04 = some (.initHmac []) ∧
    decodeTableWord 8 0x00 = none := by decide

/-! ### Steps: reserved opcodes, waiting, the fetched word -/

theorem test_step_reserved : refusalOf (step { State.reset with cmd := [0x07, 0x03] }) = some .reservedOpcode := by
  decide

theorem test_step_waits : nextField State.cmd (step { State.reset with cmd := [0x04, 0x00, 0x03, 0xaa, 0xbb] }) =
    some [0x04, 0x00, 0x03, 0xaa, 0xbb] := by decide

theorem test_step_runs_fetched_command :
    nextField State.mode (step (State.reset.withFetchWord 8 0x01)) = some .hash ∧
    nextField State.mode (step (State.reset.withFetchWord 24 0x000004)) = some .hmac := by decide

/-! ### Primitives (V5, R56) -/

theorem test_rotl :
    rotl 0x67452301 5 = 0xE8A4602C ∧ rotl 0xEFCDAB89 30 = 0x7BF36AE2 ∧ rotl 0x80000000 1 = 0x00000001 := by decide

theorem test_round_functions :
    choose 0xEFCDAB89 0x98BADCFE 0x10325476 = 0x98BADCFE ∧ parity 0xDC64901D 0x20AA99CA 0xD3A49608 = 0x2F6A9FDF ∧
    majority 0x4C986405 0xF718E5CF 0x03D447F6 = 0x479865C7 := by decide

theorem test_lane_writes :
    laneWrite (laneWrite (laneWrite (laneWrite 0xFFFFFFFF 0 0x61) 1 0x62) 2 0x63) 3 0x80 = 0x61626380 := by decide

theorem test_length_field :
    lengthField 84 = [0, 0, 0, 0, 0x00, 0x00, 0x02, 0xA0] ∧ lengthField 0x1FFFFFFF = [0, 0, 0, 0, 0xFF, 0xFF, 0xFF, 0xF8] ∧
    lengthField 0x20000040 = [0, 0, 0, 0, 0x00, 0x00, 0x02, 0x00] := by decide

theorem test_digest_bytes :
    (digestBytes #v[0xA9993E36, 0x4706816A, 0xBA3E2571, 0x7850C26C, 0x9CD0D89D]).toList =
      [0xa9, 0x99, 0x3e, 0x36, 0x47, 0x06, 0x81, 0x6a, 0xba, 0x3e, 0x25, 0x71, 0x78, 0x50, 0xc2, 0x6c, 0x9c, 0xd0, 0xd8,
        0x9d] := by decide

/-! ### Compression (V1, V2, V4) -/

theorem test_round_zero :
    roundStep 0 0x61626380 (seed Config.iv) = ⟨0x0116FC33, 0x67452301, 0x7BF36AE2, 0x98BADCFE, 0x10325476⟩ := by decide

theorem test_round_forty :
    (roundStep 40 0xD2E138C4 ⟨0x32DE1CBA, 0x4C986405, 0xF718E5CF, 0x03D447F6, 0xF72EEC32⟩) =
      ⟨0xFC87DEDF, 0x32DE1CBA, 0x53261901, 0xF718E5CF, 0x03D447F6⟩ := by decide

theorem test_compress_empty :
    compress Config.iv ((fill 0).set 0 0x80000000) = #v[0xDA39A3EE, 0x5E6B4B0D, 0x3255BFEF, 0x95601890, 0xAFD80709] := by
  decide +kernel

theorem test_compress_abc :
    compress Config.iv (((fill 0).set 0 0x61626380).set 15 0x18) =
      #v[0xA9993E36, 0x4706816A, 0xBA3E2571, 0x7850C26C, 0x9CD0D89D] := by decide +kernel

theorem test_circular_schedule_abc :
    (circularRounds Config.iv (((fill 0).set 0 0x61626380).set 15 0x18)).1.toList =
      [0x7CD45C9D, 0x000F0000, 0xFB50753A, 0xEC6765E8, 0xBA3C2BE2, 0x0060C000, 0x3A37CD05, 0x458546F4, 0xB8599DD6,
        0x380A1A26, 0x01E02203, 0xE7CC3456, 0xE6E60B69, 0x00F60A00, 0x5795EF4F, 0x822E0879] := by decide +kernel

/-! ### The Hasher commands (P1, V9, V13, V5) -/

theorem test_init_in_done : nextField (fun s => (s.h, s.cnt, s.off, s.mode))
    (exec .init (engine .done (Vector.replicate 5 7) (fill 9) 5 9)) =
      some (#v[0x67452301, 0xEFCDAB89, 0x98BADCFE, 0x10325476, 0xC3D2E1F0], 0, 0, .hash) := by decide

theorem test_write_third_lane_count_wraps : nextField (fun s => (s.w[0], s.cnt, s.off, s.resp))
    (exec (.write 0x63) (engine .hash Config.iv ((fill 0).set 0 0x6162EEDD) 2 0xFFFFFFFF)) =
      some (0x616263DD, 0, 3, [0x01]) := by decide

theorem test_write_fills_block : nextField (fun s => (s.h, s.cnt, s.off)) (exec (.write 0x61) after63) =
    some (#v[0xDA4968EB, 0x2E377C1F, 0x884E8F52, 0x83524BEB, 0xE74EBDBD], 64, 0) := by decide +kernel

theorem test_result_abc : nextField (fun s => (s.resp, s.cnt, s.off, s.mode)) (exec .result afterAbc) =
    some ([0xa9, 0x99, 0x3e, 0x36, 0x47, 0x06, 0x81, 0x6a, 0xba, 0x3e, 0x25, 0x71, 0x78, 0x50, 0xc2, 0x6c, 0x9c, 0xd0,
      0xd8, 0x9d], 3, 0, .done) := by decide +kernel

theorem test_result_truncated_length : nextField (fun s => s.dg.toList.take 4)
    (exec .result (engine .hash Config.iv (fill 0xFFFFFFFF) 0 0x1FFFFFC0)) = some [0x3D, 0x70, 0x6E, 0xA5] := by
  decide +kernel

/-! ### The HMAC commands (V15, V19) -/

theorem test_initHmac_short_key : nextField (fun s => (s.h, s.cnt, s.off, s.k.toList.drop 18 |>.take 4))
    (exec (.initHmac (List.replicate 20 0x0b)) afterAbc) =
      some (#v[0x064C662A, 0xCC6ED1B0, 0x6CFA9AB0, 0x042F137F, 0xCEA570EB], 64, 0, [0x0b, 0x0b, 0, 0]) := by
  decide +kernel

theorem test_initHmac_empty_key : nextField (fun s => (s.h, s.mode)) (exec (.initHmac []) afterHiThere) =
    some (#v[0xC9F7BD57, 0x621BD73B, 0xEA0FEAD1, 0x41A5A132, 0x4E4F361D], .hmac) := by decide +kernel

theorem test_resultHmac_inner_hash : nextField (fun s => (s.ih.toList, s.cnt, s.off, s.mode))
    (exec .resultHmac afterHiThere) =
      some ([0x37, 0x66, 0x37, 0xc8, 0x92, 0x3d, 0xc5, 0x95, 0xe4, 0x1a, 0x27, 0x97, 0x2e, 0x99, 0x51, 0x21, 0x1d, 0x40,
        0xce, 0x98], 84, 0, .done) := by decide +kernel

/-! ### The hash and HMAC as functions (V7, V12, V17, V18) -/

theorem test_sha1_two_blocks : (sha1 (List.replicate 56 0x61)).toList.take 8 =
    [0xc2, 0xdb, 0x33, 0x0f, 0x60, 0x83, 0x85, 0x4c] := by decide +kernel

theorem test_sha1_padding_lookalike : (sha1 (0x80 :: List.replicate 55 0)).toList.take 4 = [0x3f, 0x5e, 0x37, 0xbf] := by
  decide +kernel

theorem test_keyBlock_long : (keyBlock (List.replicate 80 0xaa)).toList.take 22 =
    [0x4c, 0xa0, 0xef, 0x38, 0xf1, 0x79, 0x4b, 0x28, 0xa8, 0xf8, 0xee, 0x11, 0x0e, 0xe7, 0x9d, 0x48, 0xce, 0x13, 0xbe,
      0x25, 0, 0] := by decide +kernel

theorem test_hmac_key_of_block_length : (hmac (List.replicate 64 0xaa) [0x61, 0x62, 0x63]).toList.take 4 =
    [0xc8, 0xac, 0x14, 0x0f] := by decide +kernel

/-! ### The contract (V23) -/

theorem test_contract_refusals :
    refusalOf (exec (.write 0x61) State.reset) = some .writeUnprimed ∧
    refusalOf (exec .result State.reset) = some .resultUnprimed ∧
    refusalOf (exec .resultHmac State.reset) = some .resultHmacUnprimed ∧
    refusalOf (exec .resultHmac afterAbc) = some .resultHmacInHash ∧
    refusalOf (exec .result afterHiThere) = some .resultInHmac := by decide

theorem test_contract_refusals_done :
    refusalOf (exec (.write 0x61) (engine .done Config.iv (fill 0) 0 0)) = some .writeDone ∧
    refusalOf (exec .result (engine .done Config.iv (fill 0) 0 0)) = some .resultDone ∧
    refusalOf (exec .resultHmac (engine .done Config.iv (fill 0) 0 0)) = some .resultHmacDone := by decide

/-! ### The program notation (R85, R86; P1, P2) -/

theorem test_assemble_p1 :
    assemble "INIT ; 01\nWRITE 0x61\nWRITE 98\n\nRESULT ; 03".toList = some [.init, .write 0x61, .write 0x62, .result] := by
  decide +kernel

theorem test_assemble_macros :
    assemble "INITHMAC 0b 0b\nINITHMAC \"Jefe\"\nRESULTHMAC\nSHA1 \"a\"".toList =
      some [.initHmac [0x0b, 0x0b], .initHmac [0x4a, 0x65, 0x66, 0x65], .resultHmac, .init, .write 0x61, .result] ∧
    assemble "WRITE 0x100".toList = none := by decide +kernel

/-! ### TOTP (V20, V21, R182) -/

theorem test_totp_steps : totpSteps 59 30 = some 1 ∧ totpSteps 29 30 = some 0 ∧ totpSteps 29 0 = none := by decide

theorem test_moving_factor : movingFactor 37037036 = [0x00, 0x00, 0x00, 0x00, 0x02, 0x35, 0x23, 0xec] := by decide

theorem test_code_step_one : codeOfDigest (hmac totpSecret (movingFactor 1)) = [0x32, 0x38, 0x37, 0x30, 0x38, 0x32] := by
  decide +kernel

theorem test_code_leading_zero_offset_thirteen :
    codeOfDigest #v[0xb0, 0x09, 0x2b, 0x21, 0xd0, 0x48, 0xaf, 0x20, 0x9d, 0xa0, 0xa1, 0xdd, 0xd4, 0x98, 0xad, 0xe8, 0xa7,
      0x94, 0x87, 0xed] = [0x30, 0x35, 0x30, 0x34, 0x37, 0x31] := by decide

theorem test_code_offset_fifteen :
    codeOfDigest #v[0x25, 0xa3, 0x26, 0xd3, 0x1f, 0xc3, 0x66, 0x24, 0x4c, 0xad, 0x05, 0x49, 0x76, 0x02, 0x0c, 0x7b, 0x56,
      0xb1, 0x3d, 0x5f] = [0x32, 0x37, 0x39, 0x30, 0x33, 0x37] := by decide

theorem test_exchange_consumes_responses :
    (exchange [.init, .write 0x61] { State.reset with resp := [0x07] }).map (fun p => (p.1, p.2.cmd, p.2.resp, p.2.cnt)) =
      some ([0x01], [], [], 1) := by decide

theorem test_sendable_secret_short :
    (sendableSecret [0x4a] State.reset).map Prod.fst = some [0x4a] := by decide

/-! ### Witnesses: states and operands that meet the hypotheses of the statements -/

theorem witness_EncodedCommandIsReadBack : (Instr.initHmac [1, 2, 3]).wellFormed = true := by decide

theorem witness_DecodedCommandIsItsBytes :
    decode [0x02, 0x61, 0x03] = .command (.write 0x61) [0x03] := by decide

theorem witness_ReservedOpcodesAreRefused :
    (∃ op rest, ({ State.reset with cmd := [0x06] } : State).cmd = op :: rest ∧ (op = 0x00 ∨ 0x06 ≤ op.toNat)) ∧
    (∃ op rest, ({ State.reset with cmd := [0x00] } : State).cmd = op :: rest ∧ (op = 0x00 ∨ 0x06 ≤ op.toNat)) :=
  ⟨⟨0x06, [], rfl, by decide⟩, ⟨0x00, [], rfl, by decide⟩⟩

/-- The opcode alone, and all but the last byte. -/
theorem witness_PartialCommandWaits :
    (Instr.initHmac [7]).wellFormed = true ∧ 1 < (encode (.initHmac [7])).length ∧ 3 < (encode (.initHmac [7])).length ∧
    [0x04] = (encode (.initHmac [7])).take 1 ∧ [0x04, 0x00, 0x01] = (encode (.initHmac [7])).take 3 := by decide

theorem witness_ExhaustedStreamHolds : afterAbc.final = true := by decide

theorem witness_StepRunsTheDecodedCommand :
    decode ({ State.reset with cmd := [0x02, 0x61] } : State).cmd = .command (.write 0x61) [] := by decide

theorem witness_StreamIsPerformedInOrder : ∀ i ∈ [Instr.init, .write 0x61, .result], i.wellFormed = true := by decide

theorem witness_SendingDuringACommandChangesNothing :
    decode ({ State.reset with cmd := [0x01] } : State).cmd = .command .init [] ∧
    (∃ t, step { State.reset with cmd := [0x01] } = .next t) ∧
    decode ({ State.reset with cmd := [0x03] } : State).cmd = .command .result [] ∧
    step { State.reset with cmd := [0x03] } = .refused .resultUnprimed :=
  ⟨by decide, ⟨_, rfl⟩, by decide, rfl⟩

/-- All the waiting bytes are read. -/
theorem witness_ReadingResponsesDisturbsNothing :
    1 ≤ ({ State.reset with resp := [0x01], cmd := [0x01] } : State).resp.length ∧
    (∃ t, step { State.reset with resp := [0x01], cmd := [0x01] } = .next t) ∧
    step { State.reset with resp := [0x01], cmd := [0x03] } = .refused .resultUnprimed :=
  ⟨by decide, ⟨_, rfl⟩, rfl⟩

theorem witness_CallingContract :
    State.reset.mode = .unprimed ∧ afterAbc.mode = .hash ∧ afterHiThere.mode = .hmac ∧
    (engine .done Config.iv (fill 0) 0 0).mode = .done := by decide

theorem witness_EveryStopIsAListedRefusal : run 1 { State.reset with cmd := [0x03] } = .refused .resultUnprimed := rfl

/-- Both ends of the range, and both modes. -/
theorem witness_WriteInsideBlock :
    ((engine .hash Config.iv (fill 0) 0 0).mode = .hash ∧ (engine .hash Config.iv (fill 0) 0 0).off.toNat < 63) ∧
    ((engine .hmac Config.iv (fill 0) 62 62).mode = .hmac ∧ (engine .hmac Config.iv (fill 0) 62 62).off.toNat < 63) := by
  decide

theorem witness_WriteThatFillsTheBlock : after63.mode = .hash ∧ after63.off.toNat = 63 := by decide

theorem witness_ResultAnswersThePaddedDigest : afterAbc.mode = .hash := by decide

/-- Both sides of the key-length test, and the longest secret. -/
theorem witness_InitHmacPrimesTheInnerHash :
    (List.replicate 64 (0 : Byte)).length ≤ 65535 ∧ (List.replicate 65 (0 : Byte)).length ≤ 65535 ∧
    (List.replicate 65535 (0 : Byte)).length ≤ 65535 := by
  simp only [List.length_replicate]
  decide

theorem witness_ResultHmacAnswersTheOuterHash : afterHiThere.mode = .hmac := by decide

/-- One command meets both premises at once; INITHMAC and RESULTHMAC meet one each. -/
theorem witness_KeyAndInnerHashWriters :
    (∃ t, exec .init State.reset = .next t) ∧ (∀ secret, Instr.init ≠ .initHmac secret) ∧ Instr.init ≠ .resultHmac ∧
    (∃ t, exec .resultHmac afterHiThere = .next t) ∧ (∀ secret, Instr.resultHmac ≠ .initHmac secret) ∧
    (∃ t, exec (.initHmac []) State.reset = .next t) ∧ Instr.initHmac [] ≠ .resultHmac :=
  ⟨⟨_, rfl⟩, nofun, nofun, ⟨_, rfl⟩, nofun, ⟨_, rfl⟩, nofun⟩

theorem witness_ResponsesOfTheCommands :
    (∃ t, exec .init State.reset = .next t) ∧ (∃ t, exec (.write 0x61) afterAbc = .next t) ∧
    (∃ t, exec .result afterAbc = .next t) ∧ (∃ t, exec (.initHmac []) State.reset = .next t) ∧
    (∃ t, exec .resultHmac afterHiThere = .next t) :=
  ⟨⟨_, rfl⟩, ⟨_, rfl⟩, ⟨_, rfl⟩, ⟨_, rfl⟩, ⟨_, rfl⟩⟩

theorem witness_LongSecretEqualsItsDigest :
    (64 < (List.replicate 65 (0 : Byte)).length ∧ (List.replicate 65 (0 : Byte)).length ≤ 65535) ∧
    (64 < (List.replicate 65535 (0 : Byte)).length ∧ (List.replicate 65535 (0 : Byte)).length ≤ 65535) := by
  simp only [List.length_replicate]
  decide

theorem witness_TrailingZeroOfSecretIsInvisible :
    ([] : List Byte).length < 64 ∧ (List.replicate 63 (0xaa : Byte)).length < 64 := by decide

/-- Offsets on both sides of each bound, and secrets on both sides of the key-length test. -/
theorem witness_CompressionsPerCommand :
    (∃ t, exec .init State.reset = .next t) ∧
    (∃ t, exec (.write 0x61) (engine .hash Config.iv (fill 0) 62 62) = .next t) ∧
    (∃ t, exec (.write 0x61) after63 = .next t) ∧
    (∃ t, exec .result (engine .hash Config.iv (fill 0) 55 55) = .next t) ∧
    (∃ t, exec .result (engine .hash Config.iv (fill 0) 56 56) = .next t) ∧
    (∃ t, exec (.initHmac (List.replicate 64 0)) State.reset = .next t) ∧
    (∃ t, exec (.initHmac (List.replicate 65 0)) State.reset = .next t) ∧
    (∃ t, exec .resultHmac (engine .hmac Config.iv (fill 0) 55 55) = .next t) ∧
    (∃ t, exec .resultHmac (engine .hmac Config.iv (fill 0) 56 56) = .next t) :=
  ⟨⟨_, rfl⟩, ⟨_, rfl⟩, ⟨_, rfl⟩, ⟨_, rfl⟩, ⟨_, rfl⟩, ⟨_, rfl⟩, ⟨_, rfl⟩, ⟨_, rfl⟩, ⟨_, rfl⟩⟩

theorem witness_WholeBlockIsCompressedAtItsLastByte :
    State.reset.off = 0 ∧ (List.replicate 64 (0x61 : Byte)).length = 64 ∧ 0 < 64 ∧ 63 < 64 := by decide

theorem witness_FourLaneWritesMakeTheWord : (0 : Fin 4) ≠ 3 ∧ (3 : Fin 4) ≠ 0 := by decide

theorem witness_LengthFieldIsTheBitLength : 0 < 2 ^ 29 ∧ 2 ^ 29 - 1 < 2 ^ 29 := by decide

theorem witness_ScheduleRecurrence : (16 ≤ 16 ∧ 16 < 80) ∧ 16 ≤ 79 ∧ 79 < 80 := by decide

theorem witness_RoundFunctionForms : 0 < 32 ∧ 31 < 32 := by decide

/-- 63 pending bytes: the next WRITE fills the block. -/
theorem session_after63 : SessionOf (List.replicate 63 0x61) after63 where
  count := by decide
  offset := by decide
  hashed := by decide +kernel
  pending := by decide +kernel

/-- An HMAC session of the all-zero key block with no message byte. -/
def afterEmptyKey : State := engine .hmac (chain Config.iv (List.replicate 64 0x36)) (fill 0) 0 64

theorem session_afterEmptyKey : SessionOf (xorPad Config.ipad afterEmptyKey.k.toList ++ []) afterEmptyKey where
  count := by decide
  offset := by decide
  hashed := by decide +kernel
  pending := fun _ h => absurd h (Nat.not_lt_zero _)

/-- A finished session whose digest stands at the end of the responses. -/
def afterResult : State := { engine .done Config.iv (fill 0) 0 3 with resp := 0x01 :: List.replicate 20 0 }

theorem witness_SessionFollowsTheWrittenBytes :
    (after63.mode = .hash ∧ SessionOf (List.replicate 63 0x61) after63) ∧
    (afterEmptyKey.mode = .hmac ∧ SessionOf (xorPad Config.ipad afterEmptyKey.k.toList ++ []) afterEmptyKey) :=
  ⟨⟨rfl, session_after63⟩, ⟨rfl, session_afterEmptyKey⟩⟩

/-- One state for each clause of the invariant, each with a command on its stream. -/
theorem witness_InvariantIsKeptByEveryStep :
    (Inv { after63 with cmd := [0x02, 0x61] } ∧ ∃ t, step { after63 with cmd := [0x02, 0x61] } = .next t) ∧
    (Inv { afterEmptyKey with cmd := [0x05] } ∧ ∃ t, step { afterEmptyKey with cmd := [0x05] } = .next t) ∧
    (Inv { afterResult with cmd := [0x01] } ∧ ∃ t, step { afterResult with cmd := [0x01] } = .next t) := by
  refine ⟨⟨⟨fun _ => ⟨_, session_after63.1, session_after63.2, session_after63.3, session_after63.4⟩, nofun, nofun⟩,
    ⟨_, rfl⟩⟩, ⟨⟨nofun, fun _ => ⟨[], session_afterEmptyKey.1, session_afterEmptyKey.2, session_afterEmptyKey.3,
    session_afterEmptyKey.4⟩, nofun⟩, ⟨_, rfl⟩⟩, ⟨⟨nofun, nofun, fun _ => ⟨rfl, [0x01], by decide⟩⟩, ⟨_, rfl⟩⟩⟩

theorem witness_PlainSessionComputesSha1 :
    [0x61, 0x62, 0x63].length < 2 ^ 29 ∧
    ({ State.reset with cmd := [0x01, 0x02, 0x61, 0x02, 0x62, 0x02, 0x63, 0x03] } : State).cmd =
      encodeAll (sha1Program [0x61, 0x62, 0x63]) ++ [] := by decide

theorem witness_HmacSessionComputesHmac :
    [0x4a].length ≤ 65535 ∧ 64 + [0x61].length < 2 ^ 29 ∧
    ({ State.reset with cmd := [0x04, 0x00, 0x01, 0x4a, 0x02, 0x61, 0x05, 0x01] } : State).cmd =
      encodeAll (hmacProgram [0x4a] [0x61]) ++ [0x01] := by decide

/-- Two states that differ in every unspecified content: the lanes at OFF and above, the key block, the inner hash and
DIGEST in a plain session; the Hasher in DONE. -/
theorem witness_UnspecifiedContentsAreUnobservable :
    SameVisible afterAbc { engine .hash Config.iv ((fill 0x12345678).set 0 0x61626300) 3 3 with
      k := Vector.replicate 64 1, ih := Vector.replicate 20 2, dg := Vector.replicate 20 3, draws := 9 } ∧
    SameVisible (engine .done Config.iv (fill 0) 0 3) (engine .done (Vector.replicate 5 1) (fill 1) 0 4) ∧
    SameVisible afterEmptyKey { afterEmptyKey with w := fill 1, dg := Vector.replicate 20 3 } :=
  ⟨⟨rfl, rfl, rfl, fun _ => ⟨rfl, rfl, rfl, by decide +kernel⟩, nofun, nofun⟩,
    ⟨rfl, rfl, rfl, fun h => h.elim nofun nofun, nofun, fun _ => rfl⟩,
    ⟨rfl, rfl, rfl, fun _ => ⟨rfl, rfl, rfl, fun _ h => absurd h (Nat.not_lt_zero _)⟩, fun _ => rfl, nofun⟩⟩

theorem witness_ResetContentsAreUnobservable : (engine .unprimed (Vector.replicate 5 7) (fill 9) 5 9).mode = .unprimed := by
  decide

/-- An idle engine settles. -/
theorem settles_idle : Settles afterAbc := ⟨afterAbc, rfl, rfl⟩

/-- An engine with a whole command on its stream settles by performing it. -/
theorem settles_busy : Settles { afterAbc with cmd := [0x01] } := ⟨_, rfl, rfl⟩

/-- An idle engine, and one that waits inside a command. -/
theorem witness_GetCodeTruncatesTheHmac :
    (({ secret := totpSecret } : Totp).timeStep ≠ 0 ∧ ({ secret := totpSecret } : Totp).secret.length < 2 ^ 29 ∧
      Settles afterAbc) ∧
    ¬ Settles { afterAbc with cmd := [0x02] } := by
  refine ⟨⟨by decide, by decide, settles_idle⟩, ?_⟩
  rintro ⟨u, h, hu⟩
  have e : u = { afterAbc with cmd := [0x02] } := (Host.Outcome.next.inj h).symm
  rw [e] at hu
  exact absurd hu (by decide)

/-- The source's pair 30 and 59, and a zero time step. -/
theorem witness_SameStepSameCode :
    (({ secret := totpSecret } : Totp).secret.length < 2 ^ 29 ∧ Settles afterAbc ∧
      Settles { afterAbc with cmd := [0x01] }) ∧
    (30 : BitVec 64).toNat / ({ secret := totpSecret } : Totp).timeStep.toNat =
      (59 : BitVec 64).toNat / ({ secret := totpSecret } : Totp).timeStep.toNat ∧
    (30 : BitVec 64).toNat / ({ secret := totpSecret, timeStep := 0 } : Totp).timeStep.toNat =
      (59 : BitVec 64).toNat / ({ secret := totpSecret, timeStep := 0 } : Totp).timeStep.toNat :=
  ⟨⟨by decide, settles_idle, settles_busy⟩, by decide, by decide⟩

end Sys2Proof.Tests
end

section
/-! PROOFS. The state family (10_state.md): what each command leaves as it was, the open session, and the machine's
invariant. -/

namespace Sys2Proof.Machine

/-! ### What a good command and a good step leave -/

/-- The five ways a command answers a next state, each with the state it leaves (60_exceptions.md R204). -/
theorem exec_next_state {i : Instr} {s t : State} (h : exec i s = .next t) :
    (i = .init ∧ t = setMode .hash (clobberDigest (initHasher s))) ∨
      (∃ b, i = .write b ∧ (s.mode = .hash ∨ s.mode = .hmac) ∧
        t = setMode s.mode (respond [ackByte] (clobberDigest (writeByte b s)))) ∨
      (i = .result ∧ t = setMode .done (resultEffect s)) ∨
      (∃ secret, i = .initHmac secret ∧
        t = setMode .hmac (clobberDigest (keyedPass Config.ipad (buildKey secret s)))) ∨
      (i = .resultHmac ∧ t = setMode .done (resultHmacEffect s)) := by
  obtain rfl | ⟨b, rfl, hm⟩ | ⟨rfl, hm⟩ | ⟨secret, rfl⟩ | ⟨rfl, hm⟩ := exec_next_cases h
  · rw [exec_init_eq] at h
    exact .inl ⟨rfl, (Host.Outcome.next.inj h).symm⟩
  · rw [exec_write_open s b hm] at h
    exact .inr (.inl ⟨b, rfl, hm, (Host.Outcome.next.inj h).symm⟩)
  · rw [exec_result_hash s hm] at h
    exact .inr (.inr (.inl ⟨rfl, (Host.Outcome.next.inj h).symm⟩))
  · rw [exec_initHmac_eq] at h
    exact .inr (.inr (.inr (.inl ⟨secret, rfl, (Host.Outcome.next.inj h).symm⟩)))
  · rw [exec_resultHmac_hmac s hm] at h
    exact .inr (.inr (.inr (.inr ⟨rfl, (Host.Outcome.next.inj h).symm⟩)))

/-- A step that answers a next state holds the state or performs a whole command. -/
theorem step_next_cases {s t : State} (h : step s = .next t) :
    t = s ∨ ∃ i rest, decode s.cmd = .command i rest ∧ exec i (consume rest s) = .next t := by
  rw [step] at h
  cases hd : decode s.cmd with
  | empty =>
    rw [hd] at h
    exact .inl (Host.Outcome.next.inj h).symm
  | incomplete =>
    rw [hd] at h
    exact .inl (Host.Outcome.next.inj h).symm
  | reserved =>
    rw [hd] at h
    cases h
  | command i rest =>
    rw [hd] at h
    exact .inr ⟨i, rest, rfl, h⟩

/-! ### Frames of the commands' effects -/

section
variable (b : Byte) (s : State)

@[simp] theorem writeByte_k : (writeByte b s).k = s.k := by simp [writeByte]
@[simp] theorem writeByte_ih : (writeByte b s).ih = s.ih := by simp [writeByte]
@[simp] theorem writeByte_cmd : (writeByte b s).cmd = s.cmd := by simp [writeByte]

@[simp] theorem resultEffect_k : (resultEffect s).k = s.k := by simp [resultEffect]
@[simp] theorem resultEffect_ih : (resultEffect s).ih = s.ih := by simp [resultEffect]
@[simp] theorem resultEffect_cmd : (resultEffect s).cmd = s.cmd := by simp [resultEffect]
@[simp] theorem resultEffect_off : (resultEffect s).off = 0 := by simp [resultEffect]

@[simp] theorem innerFinalize_k : (innerFinalize s).k = s.k := by simp [innerFinalize_eq]
@[simp] theorem innerFinalize_cmd : (innerFinalize s).cmd = s.cmd := by simp [innerFinalize_eq]

@[simp] theorem outerHash_k : (outerHash s).k = s.k := by simp [outerHash]
@[simp] theorem outerHash_cmd : (outerHash s).cmd = s.cmd := by simp [outerHash]
@[simp] theorem outerHash_off : (outerHash s).off = 0 := by simp [outerHash]

@[simp] theorem resultHmacEffect_k : (resultHmacEffect s).k = s.k := by simp [resultHmacEffect]
@[simp] theorem resultHmacEffect_cmd : (resultHmacEffect s).cmd = s.cmd := by simp [resultHmacEffect]
@[simp] theorem resultHmacEffect_off : (resultHmacEffect s).off = 0 := by simp [resultHmacEffect]

/-- RESULT answers with the DIGEST it leaves. -/
theorem resultEffect_resp : (resultEffect s).resp = (finalize s).resp ++ (resultEffect s).dg.toList := rfl

/-- RESULTHMAC answers with the DIGEST it leaves. -/
theorem resultHmacEffect_resp :
    (resultHmacEffect s).resp = (outerHash (innerFinalize s)).resp ++ (resultHmacEffect s).dg.toList := rfl

end

theorem memRead_kb_of_k_eq {s t : State} (h : t.k = s.k) (a : Fin 64) : memRead t (.kb a) = memRead s (.kb a) := by
  simp only [memRead, h]

theorem memRead_ihb_of_ih_eq {s t : State} (h : t.ih = s.ih) (a : Fin 20) :
    memRead t (.ihb a) = memRead s (.ihb a) := by
  simp only [memRead, h]

/-- Settles O21: each command's effect is built of operations that leave the register alone, but for the one command
that writes it. -/
theorem keyAndInnerHashWriters : Obligations.KeyAndInnerHashWriters := by
  intro i s t h
  obtain ⟨rfl, rfl⟩ | ⟨b, rfl, -, rfl⟩ | ⟨rfl, rfl⟩ | ⟨secret, rfl, rfl⟩ | ⟨rfl, rfl⟩ := exec_next_state h
  · exact ⟨fun _ => memRead_kb_of_k_eq rfl, fun _ => memRead_ihb_of_ih_eq rfl, rfl⟩
  · exact ⟨fun _ => memRead_kb_of_k_eq (by simp), fun _ => memRead_ihb_of_ih_eq (by simp), by simp⟩
  · exact ⟨fun _ => memRead_kb_of_k_eq (by simp), fun _ => memRead_ihb_of_ih_eq (by simp), by simp⟩
  · exact ⟨fun hi => absurd rfl (hi secret), fun _ => memRead_ihb_of_ih_eq (by simp), by simp⟩
  · exact ⟨fun _ => memRead_kb_of_k_eq (by simp), fun hi => absurd rfl hi, by simp⟩

/-! ### The open session -/

/-- An open session is the chain law of ABSORB from the initial constants, and the count of the bytes. -/
theorem sessionOf_iff {m : List Byte} {s : State} :
    SessionOf m s ↔ Absorbed Config.iv m s ∧ s.cnt = BitVec.ofNat 32 m.length :=
  ⟨fun h => ⟨⟨h.offset, h.hashed, h.pending⟩, h.count⟩, fun ⟨a, hc⟩ => ⟨hc, a.offset, a.hashed, a.pending⟩⟩

/-- A session constrains the Hasher's registers only. -/
theorem SessionOf.of_same_hasher {m : List Byte} {s t : State} (hs : SessionOf m s) (hh : t.h = s.h) (hw : t.w = s.w)
    (ho : t.off = s.off) (hc : t.cnt = s.cnt) : SessionOf m t where
  count := hc ▸ hs.count
  offset := ho ▸ hs.offset
  hashed := hh ▸ hs.hashed
  pending k hk := by
    simp only [memRead, hw]
    exact hs.pending k (ho ▸ hk)

theorem sessionOf_writeAll_initHasher (m : List Byte) (s : State) : SessionOf m (writeAll m (initHasher s)) :=
  sessionOf_iff.mpr (writeAll_initHasher m s)

theorem sessionOf_writeByte {m : List Byte} {s : State} (hs : SessionOf m s) (b : Byte) :
    SessionOf (m ++ [b]) (writeByte b s) := by
  obtain ⟨a, hc⟩ := sessionOf_iff.mp hs
  refine sessionOf_iff.mpr ⟨absorbed_writeAll a [b], ?_⟩
  rw [show writeByte b s = writeAll [b] s from rfl, writeAll_cnt, hc, List.length_append, BitVec.ofNat_add]

/-- INIT opens the session of no bytes (10_state.md R34). -/
theorem sessionOf_init (s : State) : SessionOf [] (setMode .hash (clobberDigest (initHasher s))) :=
  (sessionOf_writeAll_initHasher [] s).of_same_hasher rfl rfl rfl rfl

/-- WRITE adds its byte to the session (10_state.md R34). -/
theorem sessionOf_write {m : List Byte} {s : State} (hs : SessionOf m s) (b : Byte) :
    SessionOf (m ++ [b]) (setMode s.mode (respond [ackByte] (clobberDigest (writeByte b s)))) :=
  (sessionOf_writeByte hs b).of_same_hasher rfl rfl rfl rfl

/-- INITHMAC opens the session of the inner pad block of the key buffer it leaves (10_state.md R34). -/
theorem sessionOf_initHmac (secret : List Byte) (s : State) :
    SessionOf (xorPad Config.ipad (buildKey secret s).k.toList)
      (setMode .hmac (clobberDigest (keyedPass Config.ipad (buildKey secret s)))) :=
  (sessionOf_writeAll_initHasher _ (buildKey secret s)).of_same_hasher rfl rfl rfl rfl

/-- Settles O36: the three commands keep the chain law of ABSORB and the count. -/
theorem sessionFollowsTheWrittenBytes : Obligations.SessionFollowsTheWrittenBytes := by
  intro s
  refine ⟨⟨_, exec_init_eq s, sessionOf_init s⟩, fun m b hm hs => ⟨_, exec_write_open s b hm, sessionOf_write hs b⟩,
    fun secret => ⟨_, exec_initHmac_eq s secret, ?_⟩⟩
  rw [setMode_k, clobberDigest_k, keyedPass_k]
  exact sessionOf_initHmac secret s

/-! ### The invariant -/

theorem inv_of_unprimed {s : State} (hm : s.mode = .unprimed) : Inv s := by
  constructor <;> simp [hm]

theorem inv_of_hash {m : List Byte} {s : State} (hm : s.mode = .hash) (hs : SessionOf m s) : Inv s := by
  refine ⟨fun _ => ⟨m, hs⟩, ?_, ?_⟩ <;> simp [hm]

theorem inv_of_hmac {m : List Byte} {s : State} (hm : s.mode = .hmac)
    (hs : SessionOf (xorPad Config.ipad s.k.toList ++ m) s) : Inv s := by
  refine ⟨?_, fun _ => ⟨m, hs⟩, ?_⟩ <;> simp [hm]

/-- A command that ends with MODE DONE meets the invariant when it leaves OFF 0 and answers with DIGEST. -/
theorem inv_setMode_done {earlier : List Byte} {s : State} (ho : s.off = 0) (hr : s.resp = earlier ++ s.dg.toList) :
    Inv (setMode .done s) :=
  ⟨nofun, nofun, fun _ => ⟨ho, earlier, hr⟩⟩

/-- The invariant does not speak of the command stream. -/
theorem inv_consume {s : State} (hi : Inv s) (rest : List Byte) : Inv (consume rest s) where
  inHash hm := (hi.inHash hm).imp fun _ hs => hs.of_same_hasher rfl rfl rfl rfl
  inHmac hm := (hi.inHmac hm).imp fun _ hs => hs.of_same_hasher rfl rfl rfl rfl
  inDone := hi.inDone

/-- WRITE keeps the invariant: the session it extends is the one that is open. -/
theorem inv_write {s : State} (hi : Inv s) (b : Byte) (hm : s.mode = .hash ∨ s.mode = .hmac) :
    Inv (setMode s.mode (respond [ackByte] (clobberDigest (writeByte b s)))) := by
  rcases hm with hm | hm
  · obtain ⟨m, hs⟩ := hi.inHash hm
    exact inv_of_hash hm (sessionOf_write hs b)
  · obtain ⟨m, hs⟩ := hi.inHmac hm
    refine inv_of_hmac (m := m ++ [b]) hm ?_
    rw [setMode_k, respond_k, clobberDigest_k, writeByte_k, ← List.append_assoc]
    exact sessionOf_write hs b

/-- INITHMAC establishes the invariant: its session is the inner pad block, with no message byte yet. -/
theorem inv_initHmac (secret : List Byte) (s : State) :
    Inv (setMode .hmac (clobberDigest (keyedPass Config.ipad (buildKey secret s)))) := by
  refine inv_of_hmac (m := []) rfl ?_
  rw [setMode_k, clobberDigest_k, keyedPass_k, List.append_nil]
  exact sessionOf_initHmac secret s

/-- Every command keeps the invariant; only WRITE needs it beforehand. -/
theorem exec_keeps_inv {i : Instr} {s t : State} (hi : Inv s) (h : exec i s = .next t) : Inv t := by
  obtain ⟨-, rfl⟩ | ⟨b, -, hm, rfl⟩ | ⟨-, rfl⟩ | ⟨secret, -, rfl⟩ | ⟨-, rfl⟩ := exec_next_state h
  · exact inv_of_hash rfl (sessionOf_init s)
  · exact inv_write hi b hm
  · exact inv_setMode_done (resultEffect_off s) (resultEffect_resp s)
  · exact inv_initHmac secret s
  · exact inv_setMode_done (resultHmacEffect_off s) (resultHmacEffect_resp s)

/-- Settles O37: a step holds the state or performs a command, and every command keeps the invariant. -/
theorem invariantIsKeptByEveryStep : Obligations.InvariantIsKeptByEveryStep := by
  intro s t hi h
  obtain rfl | ⟨i, rest, -, he⟩ := step_next_cases h
  · exact hi
  · exact exec_keeps_inv (inv_consume hi rest) he

/-- Settles O38: no session is open or finished at reset. -/
theorem invariantHoldsAtReset : Obligations.InvariantHoldsAtReset :=
  inv_of_unprimed rfl

end Sys2Proof.Machine
end

section
/-! PROOFS. The memory family (20_memory.md): byte lanes, the order of the streams, the host's sending and reading, and
that contents the spec leaves unspecified cannot be seen. -/

namespace Sys2Proof.Machine

/-! ### Byte lanes (20_memory.md R54, R56) -/

/-- Lane `j` of a word is its bits `31-8j` down to `24-8j`. -/
theorem byteOf_eq_extractLsb' (w : Word) (j : Nat) : byteOf w j = w.extractLsb' (24 - 8 * j) 8 := rfl

/-- Settles O29: the word is its four lanes, and a lane holds what was last written to it. -/
theorem fourLaneWritesMakeTheWord : Obligations.FourLaneWritesMakeTheWord := by
  simp only [Obligations.FourLaneWritesMakeTheWord, ← byteOf_eq_extractLsb']
  refine ⟨fun w b0 b1 b2 b3 => ?_, fun w b j => ⟨byteOf_laneWrite_same w b j.isLt, fun i hij => ?_⟩⟩
  · rw [← be32_byteOf (laneWrite _ 3 b3)]
    simp [byteOf_laneWrite_same, byteOf_laneWrite_other]
  · exact byteOf_laneWrite_other w b i.isLt j.isLt (Fin.val_ne_of_ne hij)

/-- Settles O30: digest byte `4*i + j` is lane `j` of `H[i]`, for each of the twenty. -/
theorem digestBytesAreBigEndian : Obligations.DigestBytesAreBigEndian := by
  intro h i j
  rw [← byteOf_eq_extractLsb']
  fin_cases i <;> fin_cases j <;> rfl

/-! ### The encoding (30_encoding.md R71 to R79) -/

/-- The two length bytes carry every length up to 65535 (30_encoding.md R78). -/
theorem secretLength_lenHi_lenLo {n : Nat} (h : n ≤ Config.keyLenMax) : secretLength (lenHi n) (lenLo n) = n := by
  simp only [Config.keyLenMax] at h
  simp only [secretLength, lenHi, lenLo, BitVec.toNat_ofNat]
  omega

theorem secretLength_le (hi lo : Byte) : secretLength hi lo ≤ Config.keyLenMax := by
  have hh := hi.isLt
  have hl := lo.isLt
  simp only [secretLength, Config.keyLenMax]
  omega

theorem lenHi_secretLength (hi lo : Byte) : lenHi (secretLength hi lo) = hi := by
  have hh := hi.isLt
  have hl := lo.isLt
  apply BitVec.eq_of_toNat_eq
  simp only [lenHi, secretLength, BitVec.toNat_ofNat]
  omega

theorem lenLo_secretLength (hi lo : Byte) : lenLo (secretLength hi lo) = lo := by
  have hl := lo.isLt
  apply BitVec.eq_of_toNat_eq
  simp only [lenLo, secretLength, BitVec.toNat_ofNat]
  omega

/-- Every well-formed command is read back from its bytes, whatever follows them. -/
theorem decode_encode_append {i : Instr} (rest : List Byte) (h : i.wellFormed = true) :
    decode (encode i ++ rest) = .command i rest := by
  cases i with
  | init => rfl
  | write b => rfl
  | result => rfl
  | initHmac secret =>
    have hl := secretLength_lenHi_lenLo (of_decide_eq_true h)
    show decodeInitHmac (lenHi secret.length :: lenLo secret.length :: (secret ++ rest)) = _
    simp [decodeInitHmac, hl]
  | resultHmac => rfl

/-- What the length-prefixed form takes is the encoding of a well-formed INITHMAC. -/
theorem decodeInitHmac_eq_command {bytes rest : List Byte} {i : Instr}
    (h : decodeInitHmac bytes = .command i rest) :
    i.wellFormed = true ∧ opInitHmac :: bytes = encode i ++ rest := by
  match bytes with
  | [] => cases h
  | [_] => cases h
  | hi :: lo :: bytes =>
    simp only [decodeInitHmac] at h
    split at h
    · cases h
    · next hlen =>
      have hl : (bytes.take (secretLength hi lo)).length = secretLength hi lo := by
        rw [List.length_take]
        omega
      cases h
      refine ⟨decide_eq_true (hl.trans_le (secretLength_le hi lo)), ?_⟩
      simp [encode, hl, lenHi_secretLength, lenLo_secretLength]

/-- A command the decoder reads is well formed, and the bytes it took are that command's encoding. -/
theorem decode_eq_command {bytes rest : List Byte} {i : Instr} (h : decode bytes = .command i rest) :
    i.wellFormed = true ∧ bytes = encode i ++ rest := by
  cases bytes with
  | nil => cases h
  | cons op bytes =>
    rw [decode] at h
    split at h
    · next e => cases h; exact ⟨rfl, by rw [e]; rfl⟩
    split at h
    · next e =>
      cases bytes with
      | nil => cases h
      | cons b bytes => cases h; exact ⟨rfl, by rw [e]; rfl⟩
    split at h
    · next e => cases h; exact ⟨rfl, by rw [e]; rfl⟩
    split at h
    · next e => rw [e]; exact decodeInitHmac_eq_command h
    split at h
    · next e => cases h; exact ⟨rfl, by rw [e]; rfl⟩
    · cases h

/-- A whole command is read alike when further bytes follow. -/
theorem decode_append {bytes rest : List Byte} {i : Instr} (h : decode bytes = .command i rest)
    (more : List Byte) : decode (bytes ++ more) = .command i (rest ++ more) := by
  obtain ⟨hi, rfl⟩ := decode_eq_command h
  rw [List.append_assoc, decode_encode_append _ hi]

/-! ### The streams (20_memory.md R61, R62, R65) -/

theorem step_of_decode {s : State} {i : Instr} {rest : List Byte} (h : decode s.cmd = .command i rest) :
    step s = exec i (consume rest s) := by
  rw [step, h]

/-- Settles O8, by induction on the commands: the head of the stream is the next command, and no command looks at or
moves the bytes after it. -/
theorem streamIsPerformedInOrder : Obligations.StreamIsPerformedInOrder := by
  intro is rest
  induction is with
  | nil => exact fun s _ => rfl
  | cons i is ih =>
    intro s hwf
    have hd : decode (encodeAll (i :: is) ++ rest) = .command i (encodeAll is ++ rest) := by
      rw [encodeAll, List.flatMap_cons, List.append_assoc, decode_encode_append _ (hwf i List.mem_cons_self), encodeAll]
    have hstep : step (consume (encodeAll (i :: is) ++ rest) s) = exec i (consume (encodeAll is ++ rest) s) :=
      step_of_decode hd
    rw [List.length_cons, run_succ, hstep, runProgram, exec_consume, exec_consume]
    cases exec i s with
    | next t => exact ih t fun j hj => hwf j (List.mem_cons_of_mem _ hj)
    | fault f => rfl
    | refused r => rfl

/-- Sending commutes with the step of a whole command. -/
theorem step_hostSend {s : State} {i : Instr} {rest : List Byte} (h : decode s.cmd = .command i rest)
    (bytes : List Byte) : step (hostSend bytes s) = mapNext (hostSend bytes) (step s) := by
  have hsent : step (hostSend bytes s) = exec i (consume (rest ++ bytes) s) := step_of_decode (decode_append h bytes)
  rw [hsent, step_of_decode h, exec_consume, exec_consume]
  cases exec i s <;> rfl

/-- Settles O9: the step of a whole command and the host's sending commute. -/
theorem sendingDuringACommandChangesNothing : Obligations.SendingDuringACommandChangesNothing := by
  intro s i rest bytes h
  rw [step_hostSend h]
  exact ⟨fun t ht => by rw [ht]; rfl, fun r hr => by rw [hr]; rfl⟩

/-- Reading bytes that wait commutes with a command, which puts its answer behind them. -/
theorem exec_hostRead (i : Instr) {s : State} {n : Nat} (h : n ≤ s.resp.length) :
    exec i (hostRead n s).2 = mapNext (fun t => (hostRead n t).2) (exec i s) := by
  rw [show (hostRead n s).2 = withStreams s.cmd (s.resp.drop n) s from rfl, exec_withStreams]
  cases he : exec i s with
  | next t =>
    obtain ⟨-, -, hc⟩ := keyAndInnerHashWriters i s t he
    rw [mapNext, mapNext, ← List.drop_append_of_le_length h, exec_resp he, ← hc]
    rfl
  | fault f => rfl
  | refused r => rfl

/-- Reading bytes that wait commutes with every step. -/
theorem step_hostRead {s : State} {n : Nat} (h : n ≤ s.resp.length) :
    step (hostRead n s).2 = mapNext (fun t => (hostRead n t).2) (step s) := by
  rw [step, step, show (hostRead n s).2.cmd = s.cmd from rfl]
  cases decode s.cmd with
  | empty => rfl
  | incomplete => rfl
  | reserved => rfl
  | command i rest => exact exec_hostRead i (s := consume rest s) h

/-- Settles O10: the host's reading and a step commute. -/
theorem readingResponsesDisturbsNothing : Obligations.ReadingResponsesDisturbsNothing := by
  intro s n h
  rw [step_hostRead h]
  exact ⟨rfl, rfl, fun t ht => by rw [ht]; rfl, fun r hr => by rw [hr]; rfl⟩

/-! ### What the spec leaves unspecified cannot be seen

A relational argument: two states that agree on what a later command reads stay so under every operation, one lemma per
operation. -/

/-- At a block boundary the MessageBuffer's residue is no part of the Hasher (20_memory.md R58). -/
theorem sameHasher_of_off_zero {s t : State} (hh : s.h = t.h) (hc : s.cnt = t.cnt) (hs : s.off = 0) (ht : t.off = 0) :
    SameHasher s t :=
  ⟨hh, hc, hs.trans ht.symm, fun _ hk => absurd (hs ▸ hk) (Nat.not_lt_zero _)⟩

/-- INIT's state writes make any two Hashers the same. -/
theorem sameHasher_initHasher (s t : State) : SameHasher (initHasher s) (initHasher t) :=
  sameHasher_of_off_zero rfl rfl rfl rfl

/-- The byte written at OFF joins the lanes that agree. -/
theorem SameHasher.lanes_memWriteMb {s t : State} (hs : SameHasher s t) (b : Byte) (k : Fin 64)
    (hk : k.val ≤ s.off.toNat) :
    memRead (memWriteMb s.off b s) (.mb k) = memRead (memWriteMb t.off b t) (.mb k) := by
  rw [memRead_memWriteMb, memRead_memWriteMb, ← hs.offset]
  split
  · rfl
  · exact hs.lanes k (by omega)

theorem SameHasher.after_absorb {s t : State} (hs : SameHasher s t) (b : Byte) :
    SameHasher (absorb b s) (absorb b t) := by
  by_cases h : s.off = 63
  · have hw : (memWriteMb s.off b s).w = (memWriteMb t.off b t).w :=
      w_ext fun k => hs.lanes_memWriteMb b k (by rw [h]; exact Nat.le_of_lt_succ k.isLt)
    rw [absorb_fills b h, absorb_fills b (hs.offset ▸ h)]
    refine sameHasher_of_off_zero ?_ hs.count rfl rfl
    rw [setOff_h, setOff_h, hashBlock_h, hashBlock_h, hw, memWriteMb_h, memWriteMb_h, hs.hash]
  · rw [absorb_within b h, absorb_within b (hs.offset ▸ h)]
    refine ⟨hs.hash, hs.count, congrArg (· + 1) hs.offset, fun k hk => hs.lanes_memWriteMb b k ?_⟩
    rw [setOff_off, BitVec.toNat_add] at hk
    exact Nat.le_of_lt_succ (Nat.lt_of_lt_of_le hk (Nat.mod_le _ _))

theorem SameHasher.after_absorbAll {s t : State} (hs : SameHasher s t) (bytes : List Byte) :
    SameHasher (absorbAll bytes s) (absorbAll bytes t) := by
  induction bytes generalizing s t with
  | nil => exact hs
  | cons b bytes ih => exact ih (hs.after_absorb b)

theorem SameHasher.after_countByte {s t : State} (hs : SameHasher s t) : SameHasher (countByte s) (countByte t) :=
  ⟨hs.hash, congrArg (· + 1) hs.count, hs.offset, hs.lanes⟩

theorem SameHasher.after_writeByte {s t : State} (hs : SameHasher s t) (b : Byte) :
    SameHasher (writeByte b s) (writeByte b t) :=
  hs.after_countByte.after_absorb b

theorem SameHasher.after_writeAll {s t : State} (hs : SameHasher s t) (bytes : List Byte) :
    SameHasher (writeAll bytes s) (writeAll bytes t) := by
  induction bytes generalizing s t with
  | nil => exact hs
  | cons b bytes ih => exact ih (hs.after_writeByte b)

theorem SameHasher.after_padZeros {s t : State} (hs : SameHasher s t) (fuel : Nat) :
    SameHasher (padZeros fuel s) (padZeros fuel t) := by
  induction fuel generalizing s t with
  | zero => exact hs
  | succ fuel ih =>
    rw [padZeros, padZeros, ← hs.offset]
    split
    · exact hs
    · exact ih (hs.after_absorb 0)

theorem SameHasher.after_pad {s t : State} (hs : SameHasher s t) : SameHasher (pad s) (pad t) := by
  have hz := (hs.after_absorb Config.padMark).after_padZeros Config.blockLength
  simp only [pad, ← hz.count]
  exact hz.after_absorbAll _

/-- FINALIZE takes the same digest, whatever lies in the lanes at OFF and above (20_memory.md R58). -/
theorem SameHasher.finalize_dg_eq {s t : State} (hs : SameHasher s t) : (finalize s).dg = (finalize t).dg :=
  congrArg digestBytes hs.after_pad.hash

/-! ### The key block and the passes over it -/

theorem preHash_dg_eq (secret : List Byte) (s t : State) : (preHash secret s).dg = (preHash secret t).dg :=
  ((sameHasher_initHasher s t).after_writeAll secret).finalize_dg_eq

theorem storeKey_k_congr (bytes : List Byte) (i : Nat) {s t : State} (h : s.k = t.k) :
    (storeKey i bytes s).k = (storeKey i bytes t).k := by
  ext j hj
  rw [storeKey_k _ _ _ _ hj, storeKey_k _ _ _ _ hj, h]

/-- The key block depends on the secret alone (42_hmac_commands.md R161). -/
theorem buildKey_k_eq (secret : List Byte) (s t : State) : (buildKey secret s).k = (buildKey secret t).k := by
  simp only [buildKey, preHash_dg_eq secret (clearKey s) (clearKey t)]
  split
  · exact storeKey_k_congr _ _ (by rw [preHash_k, preHash_k, clearKey_k, clearKey_k])
  · exact storeKey_k_congr _ _ rfl

/-- A keyed iteration depends on the key block alone (42_hmac_commands.md R163). -/
theorem sameHasher_keyedPass (padByte : Byte) {s t : State} (h : s.k = t.k) :
    SameHasher (keyedPass padByte s) (keyedPass padByte t) := by
  rw [keyedPass, keyedPass, h]
  exact (sameHasher_initHasher s t).after_writeAll _

/-- RESULTHMAC's digest depends on the Hasher and the key block alone (42_hmac_commands.md R165). -/
theorem SameHasher.outerHash_dg_eq {s t : State} (hs : SameHasher s t) (hk : s.k = t.k) :
    (outerHash (innerFinalize s)).dg = (outerHash (innerFinalize t)).dg := by
  have hkey : (innerFinalize s).k = (innerFinalize t).k := by rw [innerFinalize_k, innerFinalize_k, hk]
  have hih : (innerFinalize s).ih = (innerFinalize t).ih := by
    rw [innerFinalize_eq, innerFinalize_eq]
    exact hs.finalize_dg_eq
  simp only [outerHash, keyedPass_ih, hih]
  exact ((sameHasher_keyedPass Config.opad hkey).after_writeAll _).finalize_dg_eq

/-! ### Commands under the contract -/

theorem contractWrite_ok {m m' : Mode} (h : contractWrite m = .ok m') : m' = m ∧ (m = .hash ∨ m = .hmac) := by
  cases m <;> simp_all [contractWrite]

theorem contractResult_ok {m m' : Mode} (h : contractResult m = .ok m') : m' = .done ∧ m = .hash := by
  cases m <;> simp_all [contractResult]

theorem contractResultHmac_ok {m m' : Mode} (h : contractResultHmac m = .ok m') : m' = .done ∧ m = .hmac := by
  cases m <;> simp_all [contractResultHmac]

/-- Under one cell of the contract two outcomes are alike when the effects are. -/
theorem sameOutcome_underContract {cell : Except Refusal Mode} {f g : Mode → State}
    (h : ∀ m, cell = .ok m → SameVisible (f m) (g m)) : sameOutcome (underContract cell f) (underContract cell g) := by
  cases cell with
  | error r => rfl
  | ok m => exact h m rfl

/-- What is visible once MODE is set: the streams, and what the new MODE makes visible. -/
theorem sameVisible_setMode {m : Mode} {s t : State} (hcmd : s.cmd = t.cmd) (hresp : s.resp = t.resp)
    (hh : m = .hash ∨ m = .hmac → SameHasher s t) (hk : m = .hmac → s.k = t.k) (hd : m = .done → s.dg = t.dg) :
    SameVisible (setMode m s) (setMode m t) where
  mode := rfl
  cmd := hcmd
  resp := hresp
  hasher hm := ⟨(hh hm).hash, (hh hm).count, (hh hm).offset, (hh hm).lanes⟩
  key := hk
  digest := hd

theorem sameVisible_init {s t : State} (hv : SameVisible s t) :
    SameVisible (setMode .hash (clobberDigest (initHasher s))) (setMode .hash (clobberDigest (initHasher t))) :=
  sameVisible_setMode hv.cmd hv.resp (fun _ => sameHasher_of_off_zero rfl rfl rfl rfl) nofun nofun

/-- WRITE needs an open session, where the Hashers are the same; the key block counts in an HMAC session alone. -/
theorem sameVisible_write {s t : State} (hv : SameVisible s t) (b : Byte) (hm : s.mode = .hash ∨ s.mode = .hmac) :
    SameVisible (setMode s.mode (respond [ackByte] (clobberDigest (writeByte b s))))
      (setMode s.mode (respond [ackByte] (clobberDigest (writeByte b t)))) := by
  have hs := (hv.hasher hm).after_writeByte b
  refine sameVisible_setMode ?_ ?_ (fun _ => ⟨hs.hash, hs.count, hs.offset, hs.lanes⟩) (fun h => ?_)
    (fun h => by simp [h] at hm)
  · simpa using hv.cmd
  · simpa [writeByte] using hv.resp
  · simpa using hv.key h

theorem sameVisible_result {s t : State} (hv : SameVisible s t) (hm : s.mode = .hash) :
    SameVisible (setMode .done (resultEffect s)) (setMode .done (resultEffect t)) := by
  have hd := (hv.hasher (.inl hm)).finalize_dg_eq
  refine sameVisible_setMode ?_ ?_ (by simp) nofun (fun _ => hd)
  · simpa using hv.cmd
  · simp only [resultEffect, respond_resp, finalize_resp, hv.resp, hd]

theorem sameVisible_initHmac {s t : State} (hv : SameVisible s t) (secret : List Byte) :
    SameVisible (setMode .hmac (clobberDigest (keyedPass Config.ipad (buildKey secret s))))
      (setMode .hmac (clobberDigest (keyedPass Config.ipad (buildKey secret t)))) := by
  have hk := buildKey_k_eq secret s t
  have hs := sameHasher_keyedPass Config.ipad hk
  refine sameVisible_setMode ?_ ?_ (fun _ => ⟨hs.hash, hs.count, hs.offset, hs.lanes⟩) (fun _ => ?_) nofun
  · simpa using hv.cmd
  · simpa using hv.resp
  · simpa using hk

theorem sameVisible_resultHmac {s t : State} (hv : SameVisible s t) (hm : s.mode = .hmac) :
    SameVisible (setMode .done (resultHmacEffect s)) (setMode .done (resultHmacEffect t)) := by
  have hd := (hv.hasher (.inr hm)).outerHash_dg_eq (hv.key hm)
  refine sameVisible_setMode ?_ ?_ (by simp) nofun (fun _ => hd)
  · simpa using hv.cmd
  · simp only [resultHmacEffect, respond_resp, hd]
    simp [outerHash, innerFinalize_eq, hv.resp]

/-- Every command answers alike on two states that agree on what is visible. -/
theorem exec_sameOutcome (i : Instr) {s t : State} (hv : SameVisible s t) : sameOutcome (exec i s) (exec i t) := by
  cases i with
  | init =>
    rw [exec_init_eq, exec_init_eq]
    exact sameVisible_init hv
  | write b =>
    simp only [exec, execWrite, ← hv.mode]
    refine sameOutcome_underContract fun m h => ?_
    obtain ⟨rfl, hm⟩ := contractWrite_ok h
    exact sameVisible_write hv b hm
  | result =>
    simp only [exec, execResult, ← hv.mode]
    refine sameOutcome_underContract fun m h => ?_
    obtain ⟨rfl, hm⟩ := contractResult_ok h
    exact sameVisible_result hv hm
  | initHmac secret =>
    rw [exec_initHmac_eq, exec_initHmac_eq]
    exact sameVisible_initHmac hv secret
  | resultHmac =>
    simp only [exec, execResultHmac, ← hv.mode]
    refine sameOutcome_underContract fun m h => ?_
    obtain ⟨rfl, hm⟩ := contractResultHmac_ok h
    exact sameVisible_resultHmac hv hm

theorem SameVisible.after_consume {s t : State} (hv : SameVisible s t) (rest : List Byte) :
    SameVisible (consume rest s) (consume rest t) where
  mode := hv.mode
  cmd := rfl
  resp := hv.resp
  hasher hm := ⟨(hv.hasher hm).hash, (hv.hasher hm).count, (hv.hasher hm).offset, (hv.hasher hm).lanes⟩
  key := hv.key
  digest := hv.digest

/-- Settles O44: the same bytes are decoded, and every command keeps the agreement and answers alike. -/
theorem unspecifiedContentsAreUnobservable : Obligations.UnspecifiedContentsAreUnobservable := by
  intro s t hv
  rw [step, step, ← hv.cmd]
  cases decode s.cmd with
  | empty => exact hv
  | incomplete => exact hv
  | reserved => rfl
  | command i rest => exact exec_sameOutcome i (hv.after_consume rest)

/-! ### INIT twice -/

/-- Settles O15: INIT's writes do not depend on what they replace. -/
theorem initTwiceEqualsInitOnce : Obligations.InitTwiceEqualsInitOnce :=
  fun s => ⟨_, _, exec_init_eq s, exec_init_eq _, rfl⟩

end Sys2Proof.Machine
end

section
/-! PROOFS. The encoding family (30_encoding.md): reserved opcodes, streams that end inside a command, and the response
stream. That decoding and encoding agree is proved with the memory family (`decode_encode_append`,
`decode_eq_command`), where the order of the streams needs it. -/

namespace Sys2Proof.Machine

/-! ### Decoding and encoding agree (30_encoding.md R71 to R79, R82) -/

/-- Settles O1: the two length bytes of INITHMAC carry its length, and every other format is fixed. -/
theorem encodedCommandIsReadBack : Obligations.EncodedCommandIsReadBack :=
  fun _ rest h => decode_encode_append rest h

/-- Settles O2: every format is split into its fields without loss. -/
theorem decodedCommandIsItsBytes : Obligations.DecodedCommandIsItsBytes :=
  fun _ _ _ h => decode_eq_command h

/-- Settles O3: each of the words is the encoding of its command, with the bytes that follow it. -/
theorem tableWordsDecode : Obligations.TableWordsDecode :=
  ⟨decode_encode_append (i := .init) [] rfl,
    decode_encode_append (i := .write 0x61) [] rfl,
    decode_encode_append (i := .result) [] rfl,
    decode_encode_append (i := .initHmac [0x4a, 0x65, 0x66, 0x65]) [] rfl,
    decode_encode_append (i := .resultHmac) [] rfl,
    decode_encode_append (i := .write 0x03) [0x03] rfl,
    decode_encode_append (i := .initHmac [0x01, 0x03]) [0x05] rfl⟩

/-- Settles O7: `step` dispatches on what the decoder finds. -/
theorem stepRunsTheDecodedCommand : Obligations.StepRunsTheDecodedCommand :=
  fun _ _ _ h => step_of_decode h

/-! ### Reserved opcodes (30_encoding.md R81) -/

/-- A byte is one of the five opcodes or a reserved one. -/
theorem opcode_cases (op : Byte) :
    (op = opInit ∨ op = opWrite ∨ op = opResult ∨ op = opInitHmac ∨ op = opResultHmac) ∨
      (op = 0x00 ∨ 0x06 ≤ op.toNat) := by
  simp only [opInit, opWrite, opResult, opInitHmac, opResultHmac]
  bv_omega

theorem decode_of_reserved {op : Byte} (h : op = 0x00 ∨ 0x06 ≤ op.toNat) (bytes : List Byte) :
    decode (op :: bytes) = .reserved := by
  have hne : op ≠ opInit ∧ op ≠ opWrite ∧ op ≠ opResult ∧ op ≠ opInitHmac ∧ op ≠ opResultHmac := by
    simp only [opInit, opWrite, opResult, opInitHmac, opResultHmac]
    bv_omega
  simp [decode, hne]

theorem decodeWrite_cases (bytes : List Byte) :
    decodeWrite bytes = .incomplete ∨ ∃ i rest, decodeWrite bytes = .command i rest := by
  cases bytes with
  | nil => exact .inl rfl
  | cons b rest => exact .inr ⟨_, _, rfl⟩

theorem decodeInitHmac_cases (bytes : List Byte) :
    decodeInitHmac bytes = .incomplete ∨ ∃ i rest, decodeInitHmac bytes = .command i rest := by
  match bytes with
  | [] => exact .inl rfl
  | [_] => exact .inl rfl
  | hi :: lo :: bytes =>
    rw [decodeInitHmac]
    split
    · exact .inl rfl
    · exact .inr ⟨_, _, rfl⟩

/-- After an opcode of the table there is a whole command or the beginning of one. -/
theorem decode_of_opcode {op : Byte}
    (h : op = opInit ∨ op = opWrite ∨ op = opResult ∨ op = opInitHmac ∨ op = opResultHmac) (bytes : List Byte) :
    decode (op :: bytes) = .incomplete ∨ ∃ i rest, decode (op :: bytes) = .command i rest := by
  obtain rfl | rfl | rfl | rfl | rfl := h
  · exact .inr ⟨_, _, rfl⟩
  · exact decodeWrite_cases bytes
  · exact .inr ⟨_, _, rfl⟩
  · exact decodeInitHmac_cases bytes
  · exact .inr ⟨_, _, rfl⟩

theorem decode_eq_empty_iff {bytes : List Byte} : decode bytes = .empty ↔ bytes = [] := by
  cases bytes with
  | nil => exact iff_of_true rfl rfl
  | cons op bytes =>
    rcases opcode_cases op with h | h
    · rcases decode_of_opcode h bytes with e | ⟨i, rest, e⟩ <;> simp [e]
    · simp [decode_of_reserved h]

theorem decode_eq_reserved_iff {bytes : List Byte} :
    decode bytes = .reserved ↔ ∃ op rest, bytes = op :: rest ∧ (op = 0x00 ∨ 0x06 ≤ op.toNat) := by
  refine ⟨fun hd => ?_, fun ⟨op, rest, e, h⟩ => e ▸ decode_of_reserved h rest⟩
  cases bytes with
  | nil => cases hd
  | cons op bytes =>
    rcases opcode_cases op with h | h
    · rcases decode_of_opcode h bytes with e | ⟨i, rest, e⟩ <;> rw [e] at hd <;> cases hd
    · exact ⟨op, bytes, rfl, h⟩

/-- Only the decoder refuses for a reserved opcode; no command does. -/
theorem step_eq_refused_reserved_iff (s : State) :
    step s = .refused .reservedOpcode ↔ decode s.cmd = .reserved := by
  rw [step]
  cases decode s.cmd with
  | empty => exact iff_of_false nofun nofun
  | incomplete => exact iff_of_false nofun nofun
  | reserved => exact iff_of_true rfl rfl
  | command i rest => exact iff_of_false (exec_ne_reserved i _) nofun

/-- Settles O4: the refusal is the decoder's, and the decoder looks at the first byte. -/
theorem reservedOpcodesAreRefused : Obligations.ReservedOpcodesAreRefused :=
  fun s => (step_eq_refused_reserved_iff s).trans decode_eq_reserved_iff

/-! ### A stream that ends inside a command (30_encoding.md R83) -/

/-- A proper beginning of a command's bytes is incomplete: whatever else the decoder found there, it would find with
the missing bytes too. -/
theorem decode_eq_incomplete_of_append {p more : List Byte} {i : Instr} (hp : p ≠ []) (hm : more ≠ [])
    (h : decode (p ++ more) = .command i []) : decode p = .incomplete := by
  cases hd : decode p with
  | empty => exact absurd (decode_eq_empty_iff.mp hd) hp
  | incomplete => rfl
  | reserved =>
    obtain ⟨op, rest, rfl, hr⟩ := decode_eq_reserved_iff.mp hd
    rw [List.cons_append, decode_of_reserved hr] at h
    cases h
  | command j rest =>
    rw [decode_append hd more] at h
    injection h with _ hrest
    exact absurd (List.append_eq_nil_iff.mp hrest).2 hm

theorem step_of_incomplete {s : State} (h : decode s.cmd = .incomplete) : step s = .next s := by
  rw [step, h, awaitBytes]

/-- Settles O5: the beginning decodes as incomplete, and with the missing bytes the whole command stands there. -/
theorem partialCommandWaits : Obligations.PartialCommandWaits := by
  intro s i n hwf hpos hlt hcmd
  have hwhole : decode ((encode i).take n ++ (encode i).drop n) = .command i [] := by
    rw [List.take_append_drop, ← decode_encode_append [] hwf, List.append_nil]
  have hpart : decode s.cmd = .incomplete := by
    rw [hcmd]
    refine decode_eq_incomplete_of_append (List.ne_nil_of_length_pos ?_) (List.ne_nil_of_length_pos ?_) hwhole
    · rw [List.length_take]
      omega
    · rw [List.length_drop]
      omega
  have hsent : decode (hostSend ((encode i).drop n) s).cmd = .command i [] := by
    rw [hostSend_cmd, hcmd, hwhole]
  exact ⟨step_of_incomplete hpart, decide_eq_true hpart, step_of_decode hsent⟩

/-! ### The response stream (30_encoding.md R80) -/

section
variable (b : Byte) (s : State)

@[simp] theorem writeByte_resp : (writeByte b s).resp = s.resp := by simp [writeByte]
@[simp] theorem innerFinalize_resp : (innerFinalize s).resp = s.resp := by simp [innerFinalize_eq]
@[simp] theorem outerHash_resp : (outerHash s).resp = s.resp := by simp [outerHash]

end

/-- Settles O22: what a command computes leaves the response stream alone, and only its answer joins it. -/
theorem responsesOfTheCommands : Obligations.ResponsesOfTheCommands := by
  intro i s t h
  obtain ⟨rfl, rfl⟩ | ⟨b, rfl, -, rfl⟩ | ⟨rfl, rfl⟩ | ⟨secret, rfl, rfl⟩ | ⟨rfl, rfl⟩ := exec_next_state h
  · simp
  · simp [ackByte]
  · simp [resultEffect_resp]
  · simp
  · simp [resultHmacEffect_resp]

end Sys2Proof.Machine
end

section
/-! PROOFS. The compression family (40_compression.md): the word operators and the length field, blocks and their
compression, the padding in closed form, the message schedule in its two forms, and the plain hash session. -/

namespace Sys2Proof.Machine

/-! ### Rotations (40_compression.md R114) -/

theorem rotl_eq_rotateLeft (x : Word) {n : Nat} (h : n < 32) : rotl x n = x.rotateLeft n := by
  rw [rotl, BitVec.rotateLeft_def, Nat.mod_eq_of_lt h]

theorem rotl_eq_rotateRight (x : Word) {n : Nat} (hpos : 0 < n) (h : n < 32) : rotl x n = x.rotateRight (32 - n) := by
  rw [rotl, BitVec.rotateRight_def, Nat.mod_eq_of_lt (by omega), Nat.sub_sub_self h.le, BitVec.or_comm]

/-- Settles O35: the two shifts of `rotl` are the two parts of a cyclic rotation. -/
theorem rotationsAreCyclic : Obligations.RotationsAreCyclic :=
  fun x => ⟨rotl_eq_rotateLeft x (by decide), rotl_eq_rotateLeft x (by decide),
    rotl_eq_rotateRight x (by decide) (by decide)⟩

/-! ### Round functions (40_compression.md R108, R113) -/

section
variable (b c d : Word)

theorem choose_getLsbD (i : Nat) :
    (choose b c d).getLsbD i = if b.getLsbD i then c.getLsbD i else d.getLsbD i := by
  cases hb : b.getLsbD i
  · simp [choose, hb]
  · simp [choose, hb, Bool.xor_left_comm]

theorem parity_getLsbD (i : Nat) :
    (parity b c d).getLsbD i = ((b.getLsbD i ^^ c.getLsbD i) ^^ d.getLsbD i) := by
  simp [parity]

theorem majority_getLsbD (i : Nat) :
    (majority b c d).getLsbD i =
      ((b.getLsbD i && c.getLsbD i) || (d.getLsbD i && (b.getLsbD i || c.getLsbD i))) := by
  simp [majority]

theorem choose_eq_or : choose b c d = (b &&& c) ||| (~~~b &&& d) := by
  refine BitVec.eq_of_getLsbD_eq fun i hi => ?_
  rw [choose_getLsbD]
  cases hb : b[i] <;> simp [hb, hi]

theorem majority_eq_or : majority b c d = (b &&& c) ||| (b &&& d) ||| (c &&& d) := by
  refine BitVec.eq_of_getLsbD_eq fun i hi => ?_
  rw [majority_getLsbD]
  cases hd : d.getLsbD i <;> simp [hd, Bool.or_assoc]

theorem majority_eq_xor : majority b c d = (b &&& c) ^^^ (b &&& d) ^^^ (c &&& d) := by
  refine BitVec.eq_of_getLsbD_eq fun i hi => ?_
  rw [majority_getLsbD]
  cases hb : b.getLsbD i <;> cases hc : c.getLsbD i <;> simp [hb, hc]

end

/-- Settles O34: the functions are bitwise, and the other forms agree with them at every bit. -/
theorem roundFunctionForms : Obligations.RoundFunctionForms :=
  fun b c d => ⟨choose_eq_or b c d, majority_eq_or b c d, majority_eq_xor b c d,
    fun i _ => ⟨choose_getLsbD b c d i, parity_getLsbD b c d i, majority_getLsbD b c d i⟩⟩

/-! ### The length field (40_compression.md R117) -/

/-- The first byte is the most significant (20_memory.md R53). -/
theorem be32_eq_append (b0 b1 b2 b3 : Byte) : be32 b0 b1 b2 b3 = b0 ++ b1 ++ b2 ++ b3 := by
  refine BitVec.eq_of_getLsbD_eq fun n hn => ?_
  simp only [be32, BitVec.getLsbD_append, BitVec.getLsbD_or, BitVec.getLsbD_shiftLeft, BitVec.getLsbD_setWidth]
  interval_cases n <;> simp

theorem byteOf_ofNat {v : Nat} (h : v < 2 ^ 32) (j : Nat) :
    byteOf (BitVec.ofNat 32 v) j = BitVec.ofNat 8 (v >>> (24 - 8 * j)) := by
  apply BitVec.eq_of_toNat_eq
  rw [byteOf, BitVec.toNat_setWidth, BitVec.toNat_ushiftRight, BitVec.toNat_ofNat, Nat.mod_eq_of_lt h,
    BitVec.toNat_ofNat]

theorem toNat_shiftLeft_three (cnt : BitVec 32) : (cnt <<< 3).toNat = 8 * cnt.toNat % 2 ^ 32 := by
  rw [BitVec.toNat_shiftLeft, Nat.shiftLeft_eq, Nat.mul_comm]

/-- While the bit length fits 32 bits, the four zero bytes are the upper half of its 64-bit form. -/
theorem lengthField_ofNat {n : Nat} (h : n < 2 ^ 29) : lengthField (BitVec.ofNat 32 n) = be64 (8 * n) := by
  have hfits : 8 * n < 2 ^ 32 := by omega
  have hlow : BitVec.ofNat 32 n <<< 3 = BitVec.ofNat 32 (8 * n) := by
    apply BitVec.eq_of_toNat_eq
    rw [toNat_shiftLeft_three, BitVec.toNat_ofNat, BitVec.toNat_ofNat]
    omega
  have hhigh {k : Nat} (hk : 32 ≤ k) : (8 * n) >>> k = 0 :=
    Nat.shiftRight_eq_zero _ _ (hfits.trans_le (Nat.pow_le_pow_right (by decide) hk))
  simp [lengthField, be64, List.range_succ, hlow, byteOf_ofNat hfits, hhigh]

/-- Settles O31: the last four bytes are the lanes of `CNT << 3`. -/
theorem lengthFieldIsTheBitLength : Obligations.LengthFieldIsTheBitLength := by
  refine ⟨fun cnt => ⟨_, _, _, _, rfl, ?_⟩, fun n => lengthField_ofNat⟩
  rw [← be32_eq_append, be32_byteOf, toNat_shiftLeft_three]

/-! ### Blocks (40_compression.md R101, R102) -/

theorem laneWrite_three (w : Word) (b : Byte) :
    laneWrite w 3 b = be32 (byteOf w 0) (byteOf w 1) (byteOf w 2) b := by
  rw [← be32_byteOf (laneWrite w 3 b)]
  simp [byteOf_laneWrite_same, byteOf_laneWrite_other]

/-- The byte that fills the block completes the last word from its three pending lanes. -/
theorem memWriteMb_last_w (b : Byte) (s : State) :
    (memWriteMb 63 b s).w =
      s.w.set 15 (be32 (memRead s (.mb 60)) (memRead s (.mb 61)) (memRead s (.mb 62)) b) :=
  congrArg (s.w.set 15) (laneWrite_three _ b)

/-- Settles O17: the written byte is absorbed into lane 63, which compresses the block. -/
theorem writeThatFillsTheBlock : Obligations.WriteThatFillsTheBlock := by
  intro s b hm ho
  have h63 : s.off = 63 := BitVec.eq_of_toNat_eq ho
  have hwrite : writeByte b s = setOff 0 (hashBlock (memWriteMb 63 b (countByte s))) := by
    rw [writeByte, absorb_fills b (s := countByte s) h63, countByte_off, h63]
  refine ⟨_, exec_write_open s b hm, ?_⟩
  rw [hwrite]
  exact ⟨BitVec.toNat_add _ _, rfl, congrArg (compress s.h) (memWriteMb_last_w b s), rfl, rfl, rfl, rfl, rfl⟩

theorem absorbed_of_boundary {s : State} (h : s.off = 0) (bytes : List Byte) :
    Absorbed s.h bytes (absorbAll bytes s) := by
  have := absorbed_absorbAll (absorbed_nil h) bytes
  rwa [List.nil_append] at this

theorem chain_of_length_lt (h : Vector Word 5) {xs : List Byte} (hl : xs.length < 64) : chain h xs = h := by
  rw [chain, Nat.div_eq_of_lt hl, chainBlocks]

/-- Settles O28: the chain over 64 bytes is one compression, and over fewer it is none. -/
theorem wholeBlockIsCompressedAtItsLastByte : Obligations.WholeBlockIsCompressedAtItsLastByte := by
  intro s block ho hlen
  refine ⟨?_, ?_, fun n hn => ?_⟩
  · rw [(absorbed_of_boundary ho block).hashed, chain_block _ _ hlen]
  · rw [absorbAll_off, ho, hlen]
    rfl
  · rw [(absorbed_of_boundary ho (block.take n)).hashed, chain_of_length_lt]
    rw [List.length_take]
    omega

/-! ### PAD (40_compression.md R115 to R118) -/

theorem absorb_off_toNat (b : Byte) (s : State) : (absorb b s).off.toNat = (s.off.toNat + 1) % 64 := by
  rw [absorb_off, BitVec.toNat_add]
  rfl

/-- One draw for each block boundary that the bytes reach. -/
theorem absorbAll_draws (bytes : List Byte) (s : State) :
    (absorbAll bytes s).draws = s.draws + (s.off.toNat + bytes.length) / 64 := by
  induction bytes generalizing s with
  | nil => simp [Nat.div_eq_of_lt s.off.isLt]
  | cons b bytes ih =>
    rw [absorbAll_cons, ih, absorb_draws, absorb_off_toNat, List.length_cons]
    omega

theorem enginePadding_length (off : Nat) (cnt : BitVec 32) :
    (enginePadding off cnt).length = 1 + zeroCount off + 8 := by
  simp [enginePadding, Nat.add_comm 1]

/-- The loop of PAD in closed form: after the mark it is `(55 - OFF) mod 64` zeros to the length field. -/
theorem pad_eq_absorbAll (s : State) : pad s = absorbAll (enginePadding s.off.toNat s.cnt) s := by
  have hcount : (120 - (absorb Config.padMark s).off.toNat) % 64 = zeroCount s.off.toNat := by
    rw [absorb_off_toNat, zeroCount]
    omega
  have hloop : padZeros Config.blockLength (absorb Config.padMark s) =
      absorbAll (List.replicate (zeroCount s.off.toNat) 0) (absorb Config.padMark s) := by
    rw [padZeros_eq Config.blockLength _ (Nat.mod_lt _ (by decide)).le, hcount]
  simp only [pad, hloop, enginePadding, absorbAll_append, absorbAll_cnt, absorb_cnt, absorbAll_cons, absorbAll_nil]

/-- Settles O25: PAD's loop in closed form, and the frame of PAD. -/
theorem padAbsorbsMarkZerosLength : Obligations.PadAbsorbsMarkZerosLength := by
  intro s
  have hlt := s.off.isLt
  refine ⟨pad_eq_absorbAll s, ?_, pad_off s, pad_cnt s⟩
  rw [enginePadding_length, zeroCount]
  omega

/-- Settles O26: the padding ends at the next block boundary while `OFF + 9` bytes fit the block, and at the one after
it otherwise. -/
theorem padRunsOneOrTwoCompressions : Obligations.PadRunsOneOrTwoCompressions := by
  intro s
  have hlt := s.off.isLt
  rw [pad_eq_absorbAll, absorbAll_draws, enginePadding_length, zeroCount]
  split <;> omega

/-! ### The logical schedule (40_compression.md R106) -/

theorem scheduleRev_length (w : Vector Word 16) (n : Nat) : (scheduleRev w n).length = 16 + n := by
  induction n with
  | zero => simp [scheduleRev]
  | succ n ih => rw [scheduleRev, List.length_cons, ih, Nat.add_assoc]

/-- An extension only puts a word in front. -/
theorem scheduleRev_getD_add (w : Vector Word 16) (n d i : Nat) :
    (scheduleRev w (n + d)).getD (i + d) 0 = (scheduleRev w n).getD i 0 := by
  induction d with
  | zero => rfl
  | succ d ih => exact ih

theorem schedule_length (w : Vector Word 16) : (schedule w).length = 80 := by
  rw [schedule, List.length_reverse, scheduleRev_length]

/-- Word `t` of the schedule, read from any stage of its making that holds it. -/
theorem schedule_getD (w : Vector Word 16) {n t : Nat} (hn : n ≤ 64) (ht : t < 16 + n) :
    (schedule w).getD t 0 = (scheduleRev w n).getD (15 + n - t) 0 := by
  have hlen := scheduleRev_length w 64
  rw [schedule, List.getD_reverse _ (by omega), hlen, ← scheduleRev_getD_add w n (64 - n), Nat.add_sub_cancel' hn]
  congr 1
  omega

theorem schedule_getD_block (w : Vector Word 16) {t : Nat} (ht : t < 16) : (schedule w).getD t 0 = w[t] := by
  rw [schedule_getD w (Nat.zero_le 64) ht, scheduleRev, List.getD_reverse _ (by simp; omega)]
  simp [show 15 - (15 - t) = t by omega, ht]

theorem schedule_getD_recurrence (w : Vector Word 16) {t : Nat} (h16 : 16 ≤ t) (h80 : t < 80) :
    (schedule w).getD t 0 =
      rotl ((schedule w).getD (t - 3) 0 ^^^ (schedule w).getD (t - 8) 0 ^^^ (schedule w).getD (t - 14) 0 ^^^
        (schedule w).getD (t - 16) 0) 1 := by
  obtain ⟨n, rfl⟩ := Nat.exists_eq_add_of_le h16
  have before {k : Nat} (h1 : 1 ≤ k) (hk : k ≤ 16) :
      (schedule w).getD (16 + n - k) 0 = (scheduleRev w n).getD (k - 1) 0 := by
    rw [schedule_getD w (n := n) (by omega) (by omega)]
    congr 1
    omega
  rw [schedule_getD w (n := n + 1) (by omega) (by omega), show 15 + (n + 1) - (16 + n) = 0 by omega,
    before (by decide) (by decide), before (by decide) (by decide), before (by decide) (by decide),
    before (by decide) (by decide)]
  rfl

/-- Settles O32: each stage of the schedule keeps the words before it and puts the next one in front. -/
theorem scheduleRecurrence : Obligations.ScheduleRecurrence := by
  refine fun w => ⟨schedule_length w, fun t => schedule_getD_block w t.isLt, fun t h16 h80 => ?_⟩
  rw [schedule_getD_recurrence w h16 h80, rotl_eq_rotateLeft _ (by decide)]

/-! ### The circular schedule (40_compression.md R107) -/

/-- The invariant of the circular form before round `t`: the buffer holds, at indices modulo 16, the sixteen schedule
words that end with `w_(t-1)`, or the block itself while `t` is at most 16. -/
def HoldsWindow (w : Vector Word 16) (t : Nat) (buf : Vector Word 16) : Prop :=
  ∀ j, t - 16 ≤ j → j < t - 16 + 16 → buf[j % 16] = (schedule w).getD j 0

theorem holdsWindow_block (w : Vector Word 16) : HoldsWindow w 0 w := by
  intro j _ hj
  have hj : j < 16 := hj
  simp only [Nat.mod_eq_of_lt hj]
  exact (schedule_getD_block w hj).symm

/-- From round 16 on the word that leaves the window is the one overwritten. -/
theorem circularRound_holdsWindow {w : Vector Word 16} {t : Nat} {p : Vector Word 16 × Working} (ht : t < 80)
    (hp : HoldsWindow w t p.1) : HoldsWindow w (t + 1) (circularRound p t).1 := by
  intro j hlo hhi
  by_cases h16 : t < 16
  · simp only [circularRound, if_pos h16]
    exact hp j (by omega) (by omega)
  · have back {k : Nat} (h1 : 1 ≤ k) (hk : k ≤ 16) : p.1[(t - k) % 16] = (schedule w).getD (t - k) 0 :=
      hp (t - k) (by omega) (by omega)
    simp only [circularRound, if_neg h16, Vector.getElem_set]
    by_cases hj : j = t
    · rw [hj, if_pos rfl, back (by decide) (by decide), back (by decide) (by decide), back (by decide) (by decide),
        back (by decide) (by decide), schedule_getD_recurrence w (by omega) ht]
    · rw [if_neg (by omega)]
      exact hp j (by omega) (by omega)

/-- The word a circular round takes from the buffer is `w_t`. -/
theorem circularRound_working {w : Vector Word 16} {t : Nat} {p : Vector Word 16 × Working} (ht : t < 80)
    (hp : HoldsWindow w t p.1) : (circularRound p t).2 = roundStep t ((schedule w).getD t 0) p.2 :=
  congrArg (roundStep t · p.2) (circularRound_holdsWindow ht hp t (by omega) (by omega))

theorem roundsFrom_append (t : Nat) (xs ys : List Word) (r : Working) :
    roundsFrom t (xs ++ ys) r = roundsFrom (t + xs.length) ys (roundsFrom t xs r) := by
  induction xs generalizing t r with
  | nil => rfl
  | cons x xs ih => rw [List.cons_append, roundsFrom, ih, roundsFrom, List.length_cons, Nat.add_assoc, Nat.add_comm 1]

/-- The first `t` rounds in the two forms: the buffer is the window of the schedule, the registers are the same. -/
theorem circularRounds_take (h : Vector Word 5) (w : Vector Word 16) {t : Nat} (ht : t ≤ 80) :
    HoldsWindow w t ((List.range t).foldl circularRound (w, seed h)).1 ∧
      ((List.range t).foldl circularRound (w, seed h)).2 = roundsFrom 0 ((schedule w).take t) (seed h) := by
  induction t with
  | zero => exact ⟨holdsWindow_block w, rfl⟩
  | succ t ih =>
    obtain ⟨hwin, hregs⟩ := ih (by omega)
    have hlen := schedule_length w
    have htake : (schedule w).take (t + 1) = (schedule w).take t ++ [(schedule w).getD t 0] := by
      rw [List.take_succ_eq_append_getElem (by omega), List.getD_eq_getElem _ _ (by omega)]
    rw [List.range_succ, List.foldl_append, List.foldl_cons, List.foldl_nil]
    refine ⟨circularRound_holdsWindow (by omega) hwin, ?_⟩
    rw [circularRound_working (by omega) hwin, hregs, htake, roundsFrom_append, List.length_take, hlen,
      Nat.min_eq_left (by omega), Nat.zero_add, roundsFrom, roundsFrom]

/-- Settles O33: after 80 rounds the two forms have the same registers, and the window is `w_64 .. w_79`. -/
theorem circularScheduleIsEquivalent : Obligations.CircularScheduleIsEquivalent := by
  intro h w
  obtain ⟨hwin, hregs⟩ := circularRounds_take h w (Nat.le_refl 80)
  refine ⟨?_, fun i => ?_⟩
  · rw [compressCircular, compress, circularRounds, Config.rounds, hregs,
      List.take_of_length_le (schedule_length w).le]
  · have hi := hwin (64 + i.val) (by omega) (by omega)
    simpa [circularRounds, Config.rounds, Nat.add_mod, Nat.mod_eq_of_lt i.isLt] using hi

/-! ### The plain hash session (40_compression.md R119, R122) -/

theorem zeroCount_mod (n : Nat) : zeroCount (n % 64) = zeroCount n := by
  rw [zeroCount, zeroCount, Nat.mod_mod]

/-- FINALIZE in an open session takes the digest of the chain over the written bytes and their padding. -/
theorem SessionOf.finalize_dg_eq {m : List Byte} {s : State} (hs : SessionOf m s) :
    (finalize s).dg = engineDigest m := by
  obtain ⟨ha, hc⟩ := sessionOf_iff.mp hs
  have hpad : enginePadding s.off.toNat s.cnt = enginePadding m.length (BitVec.ofNat 32 m.length) := by
    rw [enginePadding, ha.offset, zeroCount_mod, hc, enginePadding]
  rw [finalize_dg, pad_eq_absorbAll, (absorbed_absorbAll ha _).hashed, hpad, engineDigest]

/-- A sequence of WRITEs in an open session: the session takes the bytes, and each is acknowledged. -/
theorem runProgram_writes (m : List Byte) (is : List Instr) {sent : List Byte} {s : State}
    (hm : s.mode = .hash ∨ s.mode = .hmac) (hs : SessionOf sent s) :
    ∃ t, runProgram (writesProgram m ++ is) s = runProgram is t ∧ SessionOf (sent ++ m) t ∧ t.mode = s.mode ∧
      t.resp = s.resp ++ List.replicate m.length ackByte := by
  induction m generalizing sent s with
  | nil => exact ⟨s, rfl, by rwa [List.append_nil], rfl, (List.append_nil _).symm⟩
  | cons b m ih =>
    obtain ⟨t, hrun, ht, hmode, hresp⟩ :=
      ih (s := setMode s.mode (respond [ackByte] (clobberDigest (writeByte b s)))) hm (sessionOf_write hs b)
    refine ⟨t, ?_, by simpa using ht, hmode, ?_⟩
    · rw [← hrun, writesProgram, List.map_cons, List.cons_append, runProgram, exec_write_open s b hm, writesProgram]
    · rw [hresp]
      simp [List.replicate_succ]

/-- Settles O40: INIT opens the session of no bytes, the WRITEs extend it, and RESULT finalizes it. -/
theorem sessionOfAnyLengthComputesTheChain : Obligations.SessionOfAnyLengthComputesTheChain := by
  intro s m
  obtain ⟨u, hrun, hu, hmode, hresp⟩ := runProgram_writes m [.result] (.inl rfl) (sessionOf_init s)
  have hdg : (resultEffect u).dg = engineDigest m := hu.finalize_dg_eq
  refine ⟨setMode .done (resultEffect u), ?_, ?_, hdg, rfl⟩
  · rw [sha1Program, runProgram, exec_init_eq]
    simp only [hrun, runProgram, exec_result_hash u hmode]
  · rw [setMode_resp, resultEffect_resp, finalize_resp, hresp, hdg]
    rfl

/-! ### Known answers (42_hmac_commands.md R169) -/

/-- Settles O42: the reference functions, evaluated by the kernel. -/
theorem knownAnswers : Obligations.KnownAnswers :=
  ⟨by decide +kernel, by decide +kernel, by decide +kernel⟩

end Sys2Proof.Machine
end

section
/-! PROOFS. The Hasher family (41_hasher_commands.md): INIT, WRITE inside a block and RESULT with their frames, and the
plain hash session on the command stream. -/

namespace Sys2Proof.Machine

/-! ### The commands (41_hasher_commands.md R140, R143, R146) -/

/-- Settles O14: the contract lets INIT run in every MODE, and INIT writes H, the counters, MODE and DIGEST alone. -/
theorem initLoadsTheConstants : Obligations.InitLoadsTheConstants :=
  fun s => ⟨_, exec_init_eq s, rfl, rfl, rfl, rfl, rfl, rfl, rfl, rfl, rfl⟩

/-- Inside a block WRITE counts, fills lane OFF and moves OFF on. -/
theorem writeByte_within {s : State} (b : Byte) (h : s.off ≠ 63) :
    writeByte b s = setOff (s.off + 1) (memWriteMb s.off b (countByte s)) :=
  absorb_within (s := countByte s) b h

/-- Settles O16: inside a block the written byte goes to lane OFF, and nothing is compressed. -/
theorem writeInsideBlock : Obligations.WriteInsideBlock := by
  intro s b hm ho
  have hne : s.off ≠ 63 := fun h => absurd ho (by rw [h]; decide)
  have hoff : (s.off + 1).toNat = s.off.toNat + 1 := by
    rw [BitVec.toNat_add]
    exact Nat.mod_eq_of_lt (Nat.succ_lt_succ ho)
  refine ⟨_, exec_write_open s b hm, ?_⟩
  rw [writeByte_within b hne]
  exact ⟨BitVec.toNat_add _ _, hoff, rfl, memRead_memWriteMb s.off b (countByte s), rfl, rfl, rfl, rfl, rfl⟩

/-- RESULT's digest is that of the HashState after the padding (40_compression.md R115, R120). -/
theorem resultEffect_dg (s : State) :
    (resultEffect s).dg = digestBytes (absorbAll (enginePadding s.off.toNat s.cnt) s).h := by
  rw [← pad_eq_absorbAll]
  rfl

@[simp] theorem resultEffect_cnt (s : State) : (resultEffect s).cnt = s.cnt := by simp [resultEffect]

/-- Settles O18: FINALIZE absorbs PAD's bytes and takes the digest, and RESULT answers it. -/
theorem resultAnswersThePaddedDigest : Obligations.ResultAnswersThePaddedDigest := by
  intro s hm
  refine ⟨setMode .done (resultEffect s), exec_result_hash s hm, ?_⟩
  simp only [setMode_dg, setMode_resp, setMode_off, setMode_cnt, setMode_k, setMode_ih, setMode_cmd]
  exact ⟨resultEffect_dg s, by rw [resultEffect_resp, finalize_resp], resultEffect_off s, resultEffect_cnt s, rfl,
    resultEffect_k s, resultEffect_ih s, resultEffect_cmd s⟩

/-! ### Programs: composition and frame -/

/-- A program whose first part runs well goes on with its second part. -/
theorem runProgram_append {is : List Instr} {s t : State} (h : runProgram is s = .next t) (js : List Instr) :
    runProgram (is ++ js) s = runProgram js t := by
  induction is generalizing s with
  | nil => cases h; rfl
  | cons i is ih =>
    rw [List.cons_append, runProgram]
    rw [runProgram] at h
    cases he : exec i s with
    | next u => rw [he] at h; exact ih h
    | fault f => rw [he] at h; cases h
    | refused r => rw [he] at h; cases h

/-- What every command of a program keeps, the program keeps. -/
theorem runProgram_keeps {P : State → Prop} {is : List Instr} {s t : State}
    (hkeep : ∀ i ∈ is, ∀ u v, exec i u = .next v → P u → P v) (h : runProgram is s = .next t) (hs : P s) : P t := by
  induction is generalizing s with
  | nil => cases h; exact hs
  | cons i is ih =>
    rw [runProgram] at h
    cases he : exec i s with
    | next u =>
      rw [he] at h
      exact ih (fun j hj => hkeep j (List.mem_cons_of_mem _ hj)) h (hkeep i List.mem_cons_self s u he hs)
    | fault f => rw [he] at h; cases h
    | refused r => rw [he] at h; cases h

/-- No command touches the bytes that stand after it. -/
theorem exec_cmd {i : Instr} {s t : State} (h : exec i s = .next t) : t.cmd = s.cmd :=
  (keyAndInnerHashWriters i s t h).2.2

/-- Only INITHMAC writes the key buffer (10_state.md R24). -/
theorem exec_k {i : Instr} {s t : State} (hi : ∀ secret, i ≠ .initHmac secret) (h : exec i s = .next t) :
    t.k = s.k := by
  obtain ⟨hk, -, -⟩ := keyAndInnerHashWriters i s t h
  exact Vector.ext fun a ha => hk hi ⟨a, ha⟩

/-- Only RESULTHMAC writes the inner hash (10_state.md R25). -/
theorem exec_ih {i : Instr} {s t : State} (hi : i ≠ .resultHmac) (h : exec i s = .next t) : t.ih = s.ih := by
  obtain ⟨-, hih, -⟩ := keyAndInnerHashWriters i s t h
  exact Vector.ext fun a ha => hih hi ⟨a, ha⟩

theorem runProgram_cmd {is : List Instr} {s t : State} (h : runProgram is s = .next t) : t.cmd = s.cmd :=
  runProgram_keeps (P := fun u => u.cmd = s.cmd) (fun _ _ _ _ he hu => (exec_cmd he).trans hu) h rfl

theorem runProgram_k {is : List Instr} {s t : State} (hi : ∀ secret, .initHmac secret ∉ is)
    (h : runProgram is s = .next t) : t.k = s.k :=
  runProgram_keeps (P := fun u => u.k = s.k)
    (fun _ hmem _ _ he hu => (exec_k (fun secret e => hi secret (e ▸ hmem)) he).trans hu) h rfl

theorem runProgram_ih {is : List Instr} {s t : State} (hi : .resultHmac ∉ is) (h : runProgram is s = .next t) :
    t.ih = s.ih :=
  runProgram_keeps (P := fun u => u.ih = s.ih)
    (fun _ hmem _ _ he hu => (exec_ih (fun e => hi (e ▸ hmem)) he).trans hu) h rfl

/-- A program's bytes at the head of the stream are performed as the program, and the bytes after them stay
(20_memory.md R65; 30_encoding.md R71). -/
theorem run_of_cmd_eq_encodeAll {is : List Instr} {rest : List Byte} {s : State}
    (hwf : ∀ i ∈ is, i.wellFormed = true) (h : s.cmd = encodeAll is ++ rest) :
    run is.length s = runProgram is (consume rest s) := by
  rw [← streamIsPerformedInOrder is rest s hwf, ← h]
  rfl

/-! ### The plain hash session (41_hasher_commands.md R148, R149) -/

theorem mem_sha1Program {m : List Byte} {i : Instr} :
    i ∈ sha1Program m ↔ i = .init ∨ (∃ b ∈ m, .write b = i) ∨ i = .result := by
  simp [sha1Program, writesProgram]

theorem initHmac_notMem_sha1Program (m secret : List Byte) : .initHmac secret ∉ sha1Program m := by
  simp [mem_sha1Program]

theorem resultHmac_notMem_sha1Program (m : List Byte) : .resultHmac ∉ sha1Program m := by
  simp [mem_sha1Program]

theorem sha1Program_length (m : List Byte) : (sha1Program m).length = m.length + 2 := by
  simp [sha1Program, writesProgram]

theorem sha1Program_wellFormed (m : List Byte) : ∀ i ∈ sha1Program m, i.wellFormed = true := by
  intro i hi
  obtain rfl | ⟨b, -, rfl⟩ | rfl := mem_sha1Program.mp hi <;> rfl

/-- While the bit length fits the truncated field, the engine's padding is that of SHA-1 (40_compression.md R117,
R122). -/
theorem engineDigest_eq_sha1 {m : List Byte} (h : m.length < 2 ^ 29) : engineDigest m = sha1 m := by
  rw [engineDigest, enginePadding, lengthField_ofNat h, sha1, paddedMessage, List.append_assoc, List.append_assoc,
    List.append_assoc]

/-- Settles O39: the stream runs as the program, whose digest is SHA-1 while the length field is exact, and no command
of it writes the key buffer or the inner hash. -/
theorem plainSessionComputesSha1 : Obligations.PlainSessionComputesSha1 := by
  intro s m rest hlen hcmd
  obtain ⟨t, hrun, hresp, hdg, hmode⟩ := sessionOfAnyLengthComputesTheChain (consume rest s) m
  rw [engineDigest_eq_sha1 hlen] at hresp hdg
  have hk : t.k = (consume rest s).k := runProgram_k (initHmac_notMem_sha1Program m) hrun
  have hih : t.ih = (consume rest s).ih := runProgram_ih (resultHmac_notMem_sha1Program m) hrun
  refine ⟨t, ?_, hresp, hdg, runProgram_cmd hrun, hmode, hk, hih⟩
  rw [← sha1Program_length, run_of_cmd_eq_encodeAll (sha1Program_wellFormed m) hcmd, hrun]

/-- Settles O43: a session's answer is a function of its message, whatever state INIT finds. -/
theorem sameSessionTwiceAnswersTheSame : Obligations.SameSessionTwiceAnswersTheSame := by
  intro s m
  obtain ⟨u, hfirst, hu, -, -⟩ := sessionOfAnyLengthComputesTheChain s m
  obtain ⟨t, hsecond, ht, -, -⟩ := sessionOfAnyLengthComputesTheChain u m
  refine ⟨t, List.replicate m.length 0x01 ++ (engineDigest m).toList, ?_, by simp, ?_⟩
  · rw [runProgram_append hfirst, hsecond]
  · rw [ht, hu]
    simp only [List.append_assoc]

end Sys2Proof.Machine
end

section
/-! PROOFS. The HMAC family (42_hmac_commands.md): the key block, INITHMAC and RESULTHMAC with their frames, and the HMAC
session on the command stream. -/

namespace Sys2Proof.Machine

/-! ### The key block (42_hmac_commands.md R161, R162) -/

theorem keyBlock_of_short {secret : List Byte} (h : secret.length ≤ 64) :
    keyBlock secret = Vector.ofFn fun i : Fin 64 => secret.getD i.val 0 := by
  have hs : ¬ secret.length > Config.blockLength := Nat.not_lt.mpr h
  rw [keyBlock, if_neg hs]

/-- A long secret has the key block of its digest (42_hmac_commands.md R162). -/
theorem keyBlock_of_long {secret : List Byte} (h : 64 < secret.length) :
    keyBlock secret = keyBlock (sha1 secret).toList := by
  have hl : secret.length > Config.blockLength := h
  rw [keyBlock_of_short (secret := (sha1 secret).toList) (by simp), keyBlock, if_pos hl]

theorem keyBlock_toList_of_short {secret : List Byte} (h : secret.length ≤ 64) :
    (keyBlock secret).toList = secret ++ List.replicate (64 - secret.length) 0 := by
  rw [keyBlock_of_short h]
  refine List.ext_getElem (by simp; omega) fun i hi _ => ?_
  by_cases hs : i < secret.length
  · simp [hs]
  · simp [hs, List.getElem_append_right (Nat.not_lt.mp hs)]

theorem keyBlock_append_zero {secret : List Byte} (h : secret.length < 64) :
    keyBlock (secret ++ [0]) = keyBlock secret := by
  rw [← Vector.toList_inj, keyBlock_toList_of_short (by simpa using h), keyBlock_toList_of_short h.le,
    List.append_assoc, List.singleton_append, ← List.replicate_succ, List.length_append, List.length_singleton]
  congr 2
  omega

/-- Storing at most 64 bytes into a cleared key buffer makes their key block and nothing else
(42_hmac_commands.md R161). -/
theorem storeKey_cleared {key : List Byte} {s : State} (hs : s.k = Vector.replicate 64 0) (h : key.length ≤ 64) :
    storeKey 0 key s = { s with k := keyBlock key } := by
  have hk : (storeKey 0 key s).k = keyBlock key := by
    ext i hi
    rw [storeKey_k _ _ _ _ hi, hs, keyBlock_of_short h]
    by_cases hlt : i < key.length <;> simp [hlt]
  rw [storeKey_other, hk]

theorem buildKey_of_short {secret : List Byte} (s : State) (h : secret.length ≤ 64) :
    buildKey secret s = { s with k := keyBlock secret } := by
  have hs : ¬ secret.length > Config.blockLength := Nat.not_lt.mpr h
  rw [buildKey, if_neg hs, storeKey_cleared (clearKey_k s) h]
  rfl

/-- The pre-hash is a plain hash session (42_hmac_commands.md R162). -/
theorem preHash_dg {secret : List Byte} (s : State) (h : secret.length < 2 ^ 29) :
    (preHash secret s).dg = sha1 secret := by
  rw [preHash, (sessionOf_writeAll_initHasher secret s).finalize_dg_eq, engineDigest_eq_sha1 h]

theorem buildKey_of_long {secret : List Byte} (s : State) (hlong : 64 < secret.length) (h : secret.length < 2 ^ 29) :
    buildKey secret s = storeKey 0 (sha1 secret).toList (preHash secret (clearKey s)) := by
  have hl : secret.length > Config.blockLength := hlong
  rw [buildKey, if_pos hl, ← preHash_dg (clearKey s) h]

/-- The engine's key block is that of the formula (42_hmac_commands.md R161, R168). -/
theorem buildKey_k {secret : List Byte} (s : State) (h : secret.length < 2 ^ 29) :
    (buildKey secret s).k = keyBlock secret := by
  by_cases hshort : secret.length ≤ 64
  · rw [buildKey_of_short s hshort]
  · have hlong := Nat.lt_of_not_le hshort
    rw [buildKey_of_long s hlong h, storeKey_cleared (by simp) (by simp), keyBlock_of_long hlong]

/-! ### INITHMAC (42_hmac_commands.md R160 to R164) -/

/-- A keyed iteration compresses one block: the constants with the padded key (42_hmac_commands.md R163). -/
theorem keyedPass_h (padByte : Byte) (s : State) :
    (keyedPass padByte s).h = compress Config.iv (blockWords (xorPad padByte s.k.toList)) := by
  obtain ⟨ha, -, -⟩ := keyedPass_spec padByte s
  rw [ha.hashed, chain_block _ _ (by simp [xorPad])]

/-- Settles O19: the key block is built, and the keyed iteration over it is one whole block. -/
theorem initHmacPrimesTheInnerHash : Obligations.InitHmacPrimesTheInnerHash := by
  intro s secret hlen
  obtain ⟨-, hcnt, hoff⟩ := keyedPass_spec Config.ipad (buildKey secret s)
  refine ⟨_, exec_initHmac_eq s secret, ?_, hcnt, hoff, ?_, rfl, by simp, by simp, by simp⟩
  · rw [setMode_k, clobberDigest_k, keyedPass_k, buildKey_k s (by omega)]
    split
    case isTrue h => exact keyBlock_toList_of_short h
    case isFalse h =>
      rw [keyBlock_of_long (Nat.lt_of_not_le h), keyBlock_toList_of_short (by simp), Vector.length_toList]
  · rw [setMode_k, clobberDigest_k, keyedPass_k]
    exact keyedPass_h Config.ipad (buildKey secret s)

/-- States that agree on all registers but MessageBuffer and DIGEST, and on the streams. -/
theorem eq_but_unspecified {t u : State} (hh : t.h = u.h) (hoff : t.off = u.off) (hcnt : t.cnt = u.cnt)
    (hk : t.k = u.k) (hih : t.ih = u.ih) (hmode : t.mode = u.mode) (hcmd : t.cmd = u.cmd) (hresp : t.resp = u.resp) :
    t = { u with w := t.w, dg := t.dg, draws := t.draws } := by
  rw [← hh, ← hoff, ← hcnt, ← hk, ← hih, ← hmode, ← hcmd, ← hresp]

/-- Settles O23: what INITHMAC leaves is a function of the key block, and the secret and its digest have the same. -/
theorem longSecretEqualsItsDigest : Obligations.LongSecretEqualsItsDigest := by
  intro s secret hlong hlen
  obtain ⟨t, ht, htk, htcnt, htoff, hth, htmode, htih, htcmd, htresp⟩ := initHmacPrimesTheInnerHash s secret hlen
  obtain ⟨u, hu, huk, hucnt, huoff, huh, humode, huih, hucmd, huresp⟩ :=
    initHmacPrimesTheInnerHash s (sha1 secret).toList (by simp)
  have hk : t.k = u.k := by
    rw [← Vector.toList_inj, htk, huk, if_neg (Nat.not_le.mpr hlong), if_pos (by simp), Vector.length_toList]
  have hh : t.h = u.h := by rw [hth, huh, hk]
  exact ⟨t, u, ht, hu, eq_but_unspecified hh (htoff.trans huoff.symm) (htcnt.trans hucnt.symm) hk
    (htih.trans huih.symm) (htmode.trans humode.symm) (htcmd.trans hucmd.symm) (htresp.trans huresp.symm)⟩

/-- Settles O24: both secrets are short, and their key blocks are the same. -/
theorem trailingZeroOfSecretIsInvisible : Obligations.TrailingZeroOfSecretIsInvisible := by
  intro s secret h
  rw [exec_initHmac_eq, exec_initHmac_eq, buildKey_of_short s (by simpa using h), buildKey_of_short s h.le,
    keyBlock_append_zero h]

/-! ### RESULTHMAC (42_hmac_commands.md R165) -/

/-- The outer hash is a plain hash session over the outer pad block and InnerHash. -/
theorem outerHash_eq (s : State) :
    outerHash s = finalize (writeAll (xorPad Config.opad s.k.toList ++ s.ih.toList) (initHasher s)) := by
  rw [writeAll_append, outerHash, keyedPass_ih, keyedPass]

theorem outerHash_dg (s : State) :
    (outerHash s).dg = sha1 (xorPad Config.opad s.k.toList ++ s.ih.toList) := by
  rw [outerHash_eq, (sessionOf_writeAll_initHasher _ s).finalize_dg_eq, engineDigest_eq_sha1 (by simp [xorPad])]

@[simp] theorem outerHash_cnt (s : State) : (outerHash s).cnt = 84 := by
  simp [outerHash_eq, xorPad]

@[simp] theorem outerHash_ih (s : State) : (outerHash s).ih = s.ih := by simp [outerHash]

@[simp] theorem innerFinalize_ih (s : State) : (innerFinalize s).ih = (finalize s).dg := by rw [innerFinalize_eq]

@[simp] theorem resultHmacEffect_ih (s : State) : (resultHmacEffect s).ih = (finalize s).dg := by
  simp [resultHmacEffect]

@[simp] theorem resultHmacEffect_cnt (s : State) : (resultHmacEffect s).cnt = 84 := by simp [resultHmacEffect]

theorem resultHmacEffect_dg (s : State) :
    (resultHmacEffect s).dg = sha1 (xorPad Config.opad s.k.toList ++ (finalize s).dg.toList) := by
  rw [resultHmacEffect, respond_dg, outerHash_dg, innerFinalize_k, innerFinalize_ih]

/-- Settles O20: FINALIZE takes the inner digest, and the outer session hashes the padded key and that digest. -/
theorem resultHmacAnswersTheOuterHash : Obligations.ResultHmacAnswersTheOuterHash := by
  intro s hm
  refine ⟨setMode .done (resultHmacEffect s), exec_resultHmac_hmac s hm, ?_⟩
  simp only [setMode_ih, setMode_dg, setMode_resp, setMode_cnt, setMode_off, setMode_k, setMode_cmd]
  refine ⟨?_, ?_, ?_, resultHmacEffect_cnt s, resultHmacEffect_off s, rfl, resultHmacEffect_k s,
    resultHmacEffect_cmd s⟩
  · rw [resultHmacEffect_ih, finalize_dg, pad_eq_absorbAll]
  · rw [resultHmacEffect_dg, resultHmacEffect_ih]
    rfl
  · rw [resultHmacEffect_resp, outerHash_resp, innerFinalize_resp]

/-! ### The HMAC session (42_hmac_commands.md R166, R168) -/

theorem hmacProgram_length (secret m : List Byte) : (hmacProgram secret m).length = m.length + 2 := by
  simp [hmacProgram, writesProgram]

theorem hmacProgram_wellFormed {secret : List Byte} (m : List Byte) (h : secret.length ≤ Config.keyLenMax) :
    ∀ i ∈ hmacProgram secret m, i.wellFormed = true := by
  intro i hi
  have hcases : i = .initHmac secret ∨ (∃ b ∈ m, .write b = i) ∨ i = .resultHmac := by
    simpa [hmacProgram, writesProgram] using hi
  obtain rfl | ⟨b, -, rfl⟩ | rfl := hcases
  · exact decide_eq_true h
  · rfl
  · rfl

/-- In the session that follows INITHMAC, RESULTHMAC's digest is the formula of R168 over the key block. -/
theorem SessionOf.resultHmacEffect_dg_eq {secret m : List Byte} {s : State} (hk : s.k = keyBlock secret)
    (hs : SessionOf (xorPad Config.ipad (keyBlock secret).toList ++ m) s) (h : 64 + m.length < 2 ^ 29) :
    (resultHmacEffect s).dg = hmac secret m := by
  rw [resultHmacEffect_dg, hs.finalize_dg_eq, engineDigest_eq_sha1 (by simpa [xorPad] using h), hk, hmac]

/-- The WRITEs and the RESULTHMAC of a session do not write the key buffer. -/
theorem initHmac_notMem_hmacProgram_tail (m secret : List Byte) :
    .initHmac secret ∉ writesProgram m ++ [.resultHmac] := by
  simp [writesProgram]

/-- INITHMAC opens the session of the inner pad block, the WRITEs extend it, and RESULTHMAC answers the formula. -/
theorem runProgram_hmacProgram (s : State) {secret m : List Byte} (hsecret : secret.length < 2 ^ 29)
    (hm : 64 + m.length < 2 ^ 29) :
    ∃ t, runProgram (hmacProgram secret m) s = .next t ∧
      t.resp = s.resp ++ List.replicate m.length ackByte ++ (hmac secret m).toList ∧
      t.dg = hmac secret m ∧ t.mode = .done ∧ t.k = keyBlock secret := by
  have hopen := sessionOf_initHmac secret s
  rw [buildKey_k s hsecret] at hopen
  obtain ⟨u, hrun, hu, hmode, hresp⟩ := runProgram_writes m [.resultHmac] (.inr rfl) hopen
  have hlast : runProgram [.resultHmac] u = .next (setMode .done (resultHmacEffect u)) := by
    simp only [runProgram, exec_resultHmac_hmac u hmode]
  rw [hlast] at hrun
  have hk : (resultHmacEffect u).k = keyBlock secret := by
    have hkeep := runProgram_k (initHmac_notMem_hmacProgram_tail m) hrun
    rwa [setMode_k, setMode_k, clobberDigest_k, keyedPass_k, buildKey_k s hsecret] at hkeep
  have hdg : (resultHmacEffect u).dg = hmac secret m :=
    hu.resultHmacEffect_dg_eq ((resultHmacEffect_k u).symm.trans hk) hm
  refine ⟨setMode .done (resultHmacEffect u), ?_, ?_, by rw [setMode_dg, hdg], rfl, by rw [setMode_k, hk]⟩
  · rw [hmacProgram, runProgram, exec_initHmac_eq]
    exact hrun
  · rw [setMode_resp, resultHmacEffect_resp, outerHash_resp, innerFinalize_resp, hresp, hdg]
    simp

/-- Settles O41: the stream runs as the program, and no command touches the bytes after it. -/
theorem hmacSessionComputesHmac : Obligations.HmacSessionComputesHmac := by
  intro s secret m rest hsecret hm hcmd
  obtain ⟨t, hrun, hresp, hdg, hmode, hk⟩ :=
    runProgram_hmacProgram (consume rest s) (Nat.lt_of_le_of_lt hsecret (by decide)) hm
  refine ⟨t, ?_, hresp, hdg, runProgram_cmd hrun, hmode, hk⟩
  rw [← hmacProgram_length secret m, run_of_cmd_eq_encodeAll (hmacProgram_wellFormed m hsecret) hcmd, hrun]

end Sys2Proof.Machine
end

section
/-! PROOFS. The TOTP family (45_totp_host.md): the host's arithmetic on the digest and on the step count, and its
exchanges with the engine. -/

namespace Sys2Proof.Machine

/-! ### The six digits (45_totp_host.md R185, R186) -/

theorem asciiDigit_toNat (n : Nat) : (asciiDigit n).toNat = 0x30 + n % 10 := by
  rw [asciiDigit, BitVec.toNat_ofNat]
  omega

theorem formatCode_digits (code : Nat) : ∀ c ∈ formatCode code, 0x30 ≤ c.toNat ∧ c.toNat ≤ 0x39 := by
  intro c hc
  obtain ⟨n, rfl⟩ : ∃ n, c = asciiDigit n := by
    simp only [formatCode, List.mem_cons, List.not_mem_nil, or_false] at hc
    rcases hc with rfl | rfl | rfl | rfl | rfl | rfl <;> exact ⟨_, rfl⟩
  rw [asciiDigit_toNat]
  omega

/-- Read as a decimal number, the digits of a code below 1,000,000 are the code. -/
theorem formatCode_value {code : Nat} (h : code < 1000000) :
    (formatCode code).foldl (fun acc c => 10 * acc + (c.toNat - 0x30)) 0 = code := by
  simp only [formatCode, List.foldl_cons, List.foldl_nil, asciiDigit_toNat, Nat.add_sub_cancel_left]
  omega

/-- Settles O46: the code is the six decimal digits of a value reduced modulo 1,000,000. -/
theorem codeIsSixDigits : Obligations.CodeIsSixDigits :=
  fun _ => ⟨rfl, formatCode_digits _, formatCode_value (Nat.mod_lt _ (by decide))⟩

/-! ### Dynamic truncation (45_totp_host.md R184) -/

/-- Masking the low four bits is the remainder modulo 16. -/
theorem truncationOffset_eq_mod (d : Vector Byte 20) : truncationOffset d = d[19].toNat % 16 := by
  rw [truncationOffset, BitVec.toNat_and]
  exact Nat.and_two_pow_sub_one_eq_mod _ 4

theorem be32_toNat (b0 b1 b2 b3 : Byte) :
    (be32 b0 b1 b2 b3).toNat = 2 ^ 24 * b0.toNat + 2 ^ 16 * b1.toNat + 2 ^ 8 * b2.toNat + b3.toNat := by
  have happend {n : Nat} (x : BitVec n) (b : Byte) : (x ++ b).toNat = 2 ^ 8 * x.toNat + b.toNat := by
    rw [BitVec.toNat_append, ← Nat.shiftLeft_add_eq_or_of_lt b.isLt, Nat.shiftLeft_eq, Nat.mul_comm]
  rw [be32_eq_append, happend, happend, happend]
  omega

/-- Settles O47: the two masks are remainders, and `be32` is the big-endian value. -/
theorem truncationReadsFourBytes : Obligations.TruncationReadsFourBytes := by
  intro d
  have ho := truncationOffset_lt d
  refine ⟨truncationOffset_eq_mod d, ?_⟩
  have hread {i : Nat} (hi : i < 20) : d.toList.getD i 0 = d[i] := by simp [hi]
  rw [← truncationOffset_eq_mod, hread (by omega), hread (by omega), hread (by omega), hread (by omega), ← be32_toNat,
    truncateDigest, BitVec.toNat_and]
  exact Nat.and_two_pow_sub_one_eq_mod _ 31

/-! ### The moving factor (45_totp_host.md R182) -/

/-- The first `n` bytes, read as a number, are the bits of the step count from bit `8 * (8 - n)` up. -/
theorem movingFactor_take_value (steps : BitVec 64) {n : Nat} (hn : n ≤ 8) :
    ((movingFactor steps).take n).foldl (fun acc c => 256 * acc + c.toNat) 0 = steps.toNat >>> (8 * (8 - n)) := by
  induction n with
  | zero => exact (Nat.shiftRight_eq_zero _ _ steps.isLt).symm
  | succ n ih =>
    have hbyte : (movingFactor steps)[n]? = some ((steps >>> (8 * (7 - n))).setWidth 8) := by
      simp [movingFactor, Nat.lt_of_succ_le hn]
    have hshift : steps.toNat >>> (8 * (8 - n)) = steps.toNat >>> (8 * (7 - n)) / 256 := by
      rw [show 8 * (8 - n) = 8 * (7 - n) + 8 by omega, Nat.shiftRight_add]
      exact Nat.shiftRight_eq_div_pow _ 8
    rw [List.take_add_one, hbyte, Option.toList_some, List.foldl_append, ih (by omega), hshift, List.foldl_cons,
      List.foldl_nil, BitVec.toNat_setWidth, BitVec.toNat_ushiftRight, Nat.add_sub_add_right 7 1 n]
    exact Nat.div_add_mod _ 256

theorem movingFactor_length (steps : BitVec 64) : (movingFactor steps).length = 8 := rfl

/-- Settles O48: all eight bytes are the whole step count. -/
theorem movingFactorIsBigEndian : Obligations.MovingFactorIsBigEndian :=
  fun steps => ⟨movingFactor_length steps, movingFactor_take_value steps le_rfl⟩

/-! ### The host's exchange with an engine (20_memory.md R61; 70_reset_and_hazards.md R225) -/

/-- With the stream exhausted the engine holds its state (70_reset_and_hazards.md R233). -/
theorem run_of_cmd_nil (n : Nat) {s : State} (h : s.cmd = []) : run n s = .next s := by
  induction n with
  | zero => rfl
  | succ n ih =>
    have hstep : step s = .next s := by
      rw [step, h]
      rfl
    rw [run_succ, hstep]
    exact ih

theorem settles_of_cmd_nil {s : State} (h : s.cmd = []) : Settles s := ⟨s, serve_idle h, h⟩

/-- A command has at least one byte. -/
theorem length_le_encodeAll_length (is : List Instr) : is.length ≤ (encodeAll is).length := by
  rw [encodeAll, List.length_flatMap, ← List.length_map (fun i => (encode i).length)]
  refine List.length_le_sum_of_one_le _ fun n hn => ?_
  obtain ⟨i, -, rfl⟩ := List.mem_map.mp hn
  cases i <;> simp [encode]

/-- An engine whose stream holds a program performs it and is idle after it. -/
theorem serve_of_cmd_eq_encodeAll {is : List Instr} {s t : State} (hwf : ∀ i ∈ is, i.wellFormed = true)
    (h : s.cmd = encodeAll is) (hrun : runProgram is (consume [] s) = .next t) : serve s = .next t := by
  have hprog : run is.length s = .next t := by
    rw [run_of_cmd_eq_encodeAll hwf (h.trans (List.append_nil _).symm), hrun]
  obtain ⟨extra, hlen⟩ := Nat.exists_eq_add_of_le (length_le_encodeAll_length is)
  rw [serve, h, hlen, run_add extra hprog, run_of_cmd_nil extra (runProgram_cmd hrun)]

/-- The exchange of a program with an engine that settles: the program runs from some state with empty streams, and the
host reads what it answers. -/
theorem exchange_of_settles {program : List Instr} {s : State} (hwf : ∀ i ∈ program, i.wellFormed = true)
    (hs : Settles s) :
    ∃ u : State, u.resp = [] ∧ ∀ t, runProgram program u = .next t →
      exchange program s = some (t.resp, { t with resp := [] }) ∧ t.cmd = [] := by
  obtain ⟨idle, hidle⟩ := settles_iff.mp hs
  obtain ⟨-, hcmd⟩ := settled_eq_some.mp hidle
  refine ⟨consume [] { idle with resp := [] }, rfl, fun t hrun => ?_⟩
  have hsent : (hostSend (encodeAll program) { idle with resp := [] }).cmd = encodeAll program := by
    rw [hostSend_cmd, hcmd, List.nil_append]
  have hserve := serve_of_cmd_eq_encodeAll hwf hsent hrun
  have ht : t.cmd = [] := runProgram_cmd hrun
  exact ⟨exchange_settled program hidle (settled_eq_some.mpr ⟨hserve, ht⟩), ht⟩

/-- A plain hash session as the host sees it. -/
theorem exchange_sha1Program {m : List Byte} {s : State} (hm : m.length < 2 ^ 29) (hs : Settles s) :
    ∃ t, exchange (sha1Program m) s = some (List.replicate m.length ackByte ++ (sha1 m).toList, t) ∧ t.cmd = [] := by
  obtain ⟨u, hu, hex⟩ := exchange_of_settles (sha1Program_wellFormed m) hs
  obtain ⟨t, hrun, hresp, -, -⟩ := sessionOfAnyLengthComputesTheChain u m
  obtain ⟨hanswer, hcmd⟩ := hex t hrun
  rw [hresp, hu, List.nil_append, engineDigest_eq_sha1 hm] at hanswer
  exact ⟨_, hanswer, hcmd⟩

/-- An HMAC session as the host sees it. -/
theorem exchange_hmacProgram {secret m : List Byte} {s : State} (hsecret : secret.length ≤ Config.keyLenMax)
    (hm : 64 + m.length < 2 ^ 29) (hs : Settles s) :
    ∃ t, exchange (hmacProgram secret m) s = some (List.replicate m.length ackByte ++ (hmac secret m).toList, t) ∧
      t.cmd = [] ∧ t.resp = [] ∧ t.mode = .done := by
  obtain ⟨u, hu, hex⟩ := exchange_of_settles (hmacProgram_wellFormed m hsecret) hs
  obtain ⟨t, hrun, hresp, -, hmode, -⟩ := runProgram_hmacProgram u (hsecret.trans_lt (by decide)) hm
  obtain ⟨hanswer, hcmd⟩ := hex t hrun
  rw [hresp, hu, List.nil_append] at hanswer
  exact ⟨_, hanswer, hcmd, rfl, hmode⟩

/-! ### The keyed hash of a code (45_totp_host.md R183) -/

theorem hmac_congr {secret key : List Byte} (h : keyBlock key = keyBlock secret) (m : List Byte) :
    hmac key m = hmac secret m := by
  rw [hmac, h, hmac]

theorem digestFrom_toList (d : Vector Byte 20) : digestFrom d.toList = d := by
  ext i hi
  simp [digestFrom]

/-- What the host sends as the secret fits INITHMAC and has the key block of the secret (30_encoding.md R78). -/
theorem sendableSecret_of_settles {secret : List Byte} {s : State} (h : secret.length < 2 ^ 29) (hs : Settles s) :
    ∃ key ready, sendableSecret secret s = some (key, ready) ∧ key.length ≤ Config.keyLenMax ∧
      keyBlock key = keyBlock secret ∧ Settles ready := by
  by_cases hshort : secret.length ≤ Config.keyLenMax
  · exact ⟨secret, s, sendableSecret_short s hshort, hshort, rfl, hs⟩
  · have hlong : 64 < secret.length := lt_trans (by decide) (Nat.not_le.mp hshort)
    obtain ⟨t, hex, hcmd⟩ := exchange_sha1Program h hs
    refine ⟨(sha1 secret).toList, t, ?_, by simp [Config.keyLenMax], (keyBlock_of_long hlong).symm,
      settles_of_cmd_nil hcmd⟩
    rw [sendableSecret, if_neg hshort, hex]
    simp

theorem counterHmac_of_settles {secret : List Byte} (steps : BitVec 64) {s : State} (h : secret.length < 2 ^ 29)
    (hs : Settles s) :
    ∃ t, counterHmac secret steps s = some (hmac secret (movingFactor steps), t) ∧
      t.cmd = [] ∧ t.resp = [] ∧ t.mode = .done := by
  obtain ⟨key, ready, hsend, hkey, hblock, hready⟩ := sendableSecret_of_settles h hs
  have hlen : 64 + (movingFactor steps).length < 2 ^ 29 := by
    rw [movingFactor_length]
    decide
  obtain ⟨t, hex, hidle⟩ := exchange_hmacProgram hkey hlen hready
  refine ⟨t, ?_, hidle⟩
  simp only [counterHmac, hsend, hex, Option.map_some, movingFactor_length]
  rw [List.drop_left' List.length_replicate, digestFrom_toList, hmac_congr hblock]

/-- On an engine that does not settle the host gets no answer, be it to the secret's hash session or to the HMAC
session. -/
theorem counterHmac_of_not_settles (secret : List Byte) (steps : BitVec 64) {s : State} (hs : ¬ Settles s) :
    counterHmac secret steps s = none := by
  by_cases hshort : secret.length ≤ Config.keyLenMax
  · simp only [counterHmac, sendableSecret_short s hshort, exchange_unsettled _ hs, Option.map_none]
  · simp only [counterHmac, sendableSecret, if_neg hshort, exchange_unsettled _ hs, Option.map_none]

/-! ### The code (45_totp_host.md R180, R181, R187) -/

theorem getCode_of_zero_step {cfg : Totp} (h : cfg.timeStep = 0) (timestamp : BitVec 64) (s : State) :
    getCode cfg timestamp s = none := by
  simp only [getCode, totpSteps, if_pos h]

theorem getCode_of_nonzero_step {cfg : Totp} (h : cfg.timeStep ≠ 0) (timestamp : BitVec 64) (s : State) :
    getCode cfg timestamp s =
      (counterHmac cfg.secret (timestamp / cfg.timeStep) s).map fun p => (codeOfDigest p.1, p.2) := by
  simp only [getCode, totpSteps, if_neg h]

theorem getCode_of_settles {cfg : Totp} (timestamp : BitVec 64) {s : State} (hstep : cfg.timeStep ≠ 0)
    (hsecret : cfg.secret.length < 2 ^ 29) (hs : Settles s) :
    ∃ t, getCode cfg timestamp s =
        some (codeOfDigest (hmac cfg.secret (movingFactor (timestamp / cfg.timeStep))), t) ∧
      t.cmd = [] ∧ t.resp = [] ∧ t.mode = .done := by
  obtain ⟨t, hkeyed, hidle⟩ := counterHmac_of_settles (timestamp / cfg.timeStep) hsecret hs
  refine ⟨t, ?_, hidle⟩
  rw [getCode_of_nonzero_step hstep, hkeyed, Option.map_some]

theorem getCode_of_not_settles (cfg : Totp) (timestamp : BitVec 64) {s : State} (hs : ¬ Settles s) :
    getCode cfg timestamp s = none := by
  by_cases hstep : cfg.timeStep = 0
  · exact getCode_of_zero_step hstep timestamp s
  · rw [getCode_of_nonzero_step hstep, counterHmac_of_not_settles _ _ hs, Option.map_none]

/-- Settles O49: the host's exchanges answer the HMAC where the engine settles, and nothing where it does not. -/
theorem getCodeTruncatesTheHmac : Obligations.GetCodeTruncatesTheHmac :=
  fun cfg timestamp _ => ⟨getCode_of_settles timestamp, getCode_of_not_settles cfg timestamp⟩

/-- Settles O50: on an engine that settles the code is a function of the secret and the step count alone. -/
theorem sameStepSameCode : Obligations.SameStepSameCode := by
  intro cfg t1 t2 s1 s2 hsecret hs1 hs2 hsame
  by_cases hstep : cfg.timeStep = 0
  · simp [getCode_of_zero_step hstep, hstep]
  · have hsteps : t1 / cfg.timeStep = t2 / cfg.timeStep := by
      apply BitVec.eq_of_toNat_eq
      rw [BitVec.toNat_udiv, BitVec.toNat_udiv, hsame]
    obtain ⟨u1, h1, -⟩ := getCode_of_settles t1 hstep hsecret hs1
    obtain ⟨u2, h2, -⟩ := getCode_of_settles t2 hstep hsecret hs2
    rw [h1, h2, hsteps]
    exact ⟨rfl, iff_of_false (Option.some_ne_none _) hstep⟩

end Sys2Proof.Machine
end

section
/-! PROOFS. The exceptions family (60_exceptions.md): the calling contract as one table, the closed list of refusals, and
the engine that holds its state. -/

namespace Sys2Proof.Machine

/-! ### The transition table on MODE (60_exceptions.md R204) -/

/-- The whole table of R204: the cell of a command's column in the row of a MODE. -/
def contractCell : Instr → Mode → Except Refusal Mode
  | .init => contractInit
  | .write _ => contractWrite
  | .result => contractResult
  | .initHmac _ => contractInitHmac
  | .resultHmac => contractResultHmac

/-- Every command does what its cell says: its effect does not depend on the MODE that the cell gives it. -/
theorem exec_eq_underContract (i : Instr) (s : State) :
    ∃ effect, exec i s = underContract (contractCell i s.mode) fun m => setMode m effect := by
  cases i <;> exact ⟨_, rfl⟩

/-- A command is performed where its cell has a MODE, and leaves that MODE. -/
theorem exec_of_contractCell_ok {i : Instr} {s : State} {m m' : Mode} (hm : s.mode = m)
    (hcell : contractCell i m = .ok m') : ∃ t, exec i s = .next t ∧ t.mode = m' := by
  obtain ⟨effect, he⟩ := exec_eq_underContract i s
  rw [hm, hcell] at he
  exact ⟨_, he, setMode_mode m' effect⟩

/-- A command is refused where its cell refuses, for the cell's reason. -/
theorem exec_of_contractCell_error {i : Instr} {s : State} {m : Mode} {r : Refusal} (hm : s.mode = m)
    (hcell : contractCell i m = .error r) : exec i s = .refused r := by
  obtain ⟨effect, he⟩ := exec_eq_underContract i s
  rwa [hm, hcell] at he

/-- Settles O12: INIT and INITHMAC run in every MODE, and the other three columns are read row by row. -/
theorem callingContract : Obligations.CallingContract := fun s _ secret =>
  ⟨⟨_, exec_init_eq s, rfl⟩, ⟨_, exec_initHmac_eq s secret, rfl⟩,
    fun h => ⟨exec_of_contractCell_error h rfl, exec_of_contractCell_error h rfl, exec_of_contractCell_error h rfl⟩,
    fun h => ⟨exec_of_contractCell_ok h rfl, exec_of_contractCell_ok h rfl, exec_of_contractCell_error h rfl⟩,
    fun h => ⟨exec_of_contractCell_ok h rfl, exec_of_contractCell_error h rfl, exec_of_contractCell_ok h rfl⟩,
    fun h => ⟨exec_of_contractCell_error h rfl, exec_of_contractCell_error h rfl, exec_of_contractCell_error h rfl⟩⟩

/-! ### The closed list of refusals (60_exceptions.md R203) -/

theorem notModelled_notMem_listedRefusals (mnemonic : String) : .notModelled mnemonic ∉ listedRefusals := by
  simp [listedRefusals]

/-- The reasons of the table are on the closed list; the columns INIT and INITHMAC refuse nothing. -/
theorem mem_listedRefusals_of_contractCell {i : Instr} {m : Mode} {r : Refusal} (h : contractCell i m = .error r) :
    r ∈ listedRefusals := by
  cases i with
  | init => cases m <;> cases h
  | write b => cases m <;> cases h <;> decide
  | result => cases m <;> cases h <;> decide
  | initHmac secret => cases m <;> cases h
  | resultHmac => cases m <;> cases h <;> decide

theorem exec_next_or_listed (i : Instr) (s : State) :
    (∃ t, exec i s = .next t) ∨ ∃ r ∈ listedRefusals, exec i s = .refused r := by
  cases hcell : contractCell i s.mode with
  | ok m =>
    obtain ⟨t, ht, -⟩ := exec_of_contractCell_ok rfl hcell
    exact .inl ⟨t, ht⟩
  | error r => exact .inr ⟨r, mem_listedRefusals_of_contractCell hcell, exec_of_contractCell_error rfl hcell⟩

/-- A step refuses at decode, where a reserved opcode stands, or as the command does (60_exceptions.md R205). -/
theorem step_next_or_listed (s : State) :
    (∃ t, step s = .next t) ∨ ∃ r ∈ listedRefusals, step s = .refused r := by
  rw [step]
  cases decode s.cmd with
  | empty => exact .inl ⟨s, rfl⟩
  | incomplete => exact .inl ⟨s, rfl⟩
  | reserved => exact .inr ⟨.reservedOpcode, by decide, rfl⟩
  | command i rest => exact exec_next_or_listed i (consume rest s)

theorem step_ne_notModelled (s : State) (mnemonic : String) : step s ≠ .refused (.notModelled mnemonic) := by
  intro h
  obtain ⟨t, ht⟩ | ⟨r, hr, he⟩ := step_next_or_listed s
  · cases h.symm.trans ht
  · cases h.symm.trans he
    exact notModelled_notMem_listedRefusals mnemonic hr

/-- A refused run stays refused, for the same reason. -/
theorem run_add_of_refused {n : Nat} {s : State} {r : Refusal} (m : Nat) (h : run n s = .refused r) :
    run (n + m) s = .refused r := by
  induction n generalizing s with
  | zero => cases h
  | succ n ih =>
    rw [Nat.add_right_comm, run_succ]
    rw [run_succ] at h
    cases hs : step s with
    | next u => rw [hs] at h; exact ih h
    | fault f => rw [hs] at h; cases h
    | refused q => rw [hs] at h; exact h

/-- Settles O13: the decoder's refusal and the table's are all there are, and a run stops at the first. -/
theorem everyStopIsAListedRefusal : Obligations.EveryStopIsAListedRefusal :=
  ⟨step_next_or_listed, step_ne_notModelled, fun _ _ m _ h => run_add_of_refused m h⟩

/-! ### The exhausted stream (60_exceptions.md R214; 70_reset_and_hazards.md R233) -/

theorem final_iff {s : State} : s.final = true ↔ s.cmd = [] := decide_eq_true_iff

/-- Settles O6: with no byte on the stream every step of the run holds the state. -/
theorem exhaustedStreamHolds : Obligations.ExhaustedStreamHolds :=
  fun n _ h => run_of_cmd_nil n (final_iff.mp h)

end Sys2Proof.Machine
end

section
/-! PROOFS. The reset and hazards family (70_reset_and_hazards.md): reset, how many compressions each command runs, and
that what the registers hold after reset cannot be seen. -/

namespace Sys2Proof.Machine

/-! ### Reset (70_reset_and_hazards.md R220, R221) -/

/-- Settles O11: reset states MODE and both streams. -/
theorem resetLeavesTheEngineUnprimed : Obligations.ResetLeavesTheEngineUnprimed := ⟨rfl, rfl, rfl⟩

/-- Two outcomes that the host cannot tell apart are next states that agree, or refusals for one reason; there is no
fault (60_exceptions.md R200). -/
theorem sameOutcome_cases {o p : Host.Outcome State Fault Refusal} (h : sameOutcome o p) :
    (∃ s t, o = .next s ∧ p = .next t ∧ SameVisible s t) ∨ ∃ r, o = .refused r ∧ p = .refused r := by
  cases o with
  | next s =>
    cases p with
    | next t => exact .inl ⟨s, t, rfl, rfl, h⟩
    | fault f => cases h
    | refused r => cases h
  | fault f => cases f
  | refused r =>
    cases p with
    | next t => cases h
    | fault f => cases h
    | refused q =>
      obtain rfl : r = q := h
      exact .inr ⟨r, rfl, rfl⟩

/-- Runs of any length answer alike from two states that agree on what is visible: every step keeps the agreement. -/
theorem run_sameOutcome (n : Nat) {s t : State} (hv : SameVisible s t) : sameOutcome (run n s) (run n t) := by
  induction n generalizing s t with
  | zero => exact hv
  | succ n ih =>
    rw [run_succ, run_succ]
    obtain ⟨s', t', hs, ht, hv'⟩ | ⟨r, hs, ht⟩ := sameOutcome_cases (unspecifiedContentsAreUnobservable s t hv)
    · rw [hs, ht]
      exact ih hv'
    · rw [hs, ht]
      rfl

/-- With no session open or finished, only the streams are visible. -/
theorem sameVisible_of_unprimed {s t : State} (hs : s.mode = .unprimed) (ht : t.mode = .unprimed)
    (hcmd : s.cmd = t.cmd) (hresp : s.resp = t.resp) : SameVisible s t where
  mode := hs.trans ht.symm
  cmd := hcmd
  resp := hresp
  hasher := by simp [hs]
  key := by simp [hs]
  digest := by simp [hs]

/-- Settles O45: an unprimed engine agrees with the reset one on what is visible, and runs keep that. -/
theorem resetContentsAreUnobservable : Obligations.ResetContentsAreUnobservable :=
  fun _ n h => run_sameOutcome n (sameVisible_of_unprimed h rfl rfl rfl)

/-! ### Compressions of each command (70_reset_and_hazards.md R231)

The draw counter after each operation that compresses, and then after each command. -/

theorem writeByte_draws (b : Byte) (s : State) :
    (writeByte b s).draws = s.draws + if s.off.toNat = 63 then 1 else 0 := by
  have hlt := s.off.isLt
  rw [writeByte, absorb_draws, countByte_draws, countByte_off]
  split <;> omega

/-- FINALIZE draws for the compressions of its padding and for the HashState it leaves. -/
theorem finalize_draws_of_off (s : State) :
    (finalize s).draws = s.draws + (if s.off.toNat ≤ 55 then 1 else 2) + 1 := by
  rw [finalize_draws, padRunsOneOrTwoCompressions]

theorem writeAll_initHasher_draws (bytes : List Byte) (s : State) :
    (writeAll bytes (initHasher s)).draws = s.draws + bytes.length / 64 := by
  simp [absorbAll_draws]

/-- A plain hash session compresses the blocks of the padded message, which has at least nine bytes more than the
message. -/
theorem hashSession_draws (bytes : List Byte) (s : State) :
    (finalize (writeAll bytes (initHasher s))).draws = s.draws + ((bytes.length + 8) / 64 + 1) + 1 := by
  obtain ⟨ha, -⟩ := writeAll_initHasher bytes s
  rw [finalize_draws_of_off, writeAll_initHasher_draws, ha.offset]
  split <;> omega

/-- A keyed iteration compresses one block: the 64 bytes of the key buffer. -/
theorem keyedPass_draws (padByte : Byte) (s : State) : (keyedPass padByte s).draws = s.draws + 1 := by
  rw [keyedPass, writeAll_initHasher_draws, xorPad, List.length_map, Vector.length_toList]

theorem storeKey_draws (i : Nat) (bytes : List Byte) (s : State) : (storeKey i bytes s).draws = s.draws := by
  rw [storeKey_other]

/-- The key block of a long secret costs a plain hash session over it, that of a short one no compression. -/
theorem buildKey_draws (secret : List Byte) (s : State) :
    (buildKey secret s).draws =
      s.draws + if secret.length ≤ 64 then 0 else (secret.length + 8) / 64 + 1 + 1 := by
  by_cases h : secret.length ≤ 64
  · rw [buildKey_of_short s h, if_pos h, Nat.add_zero]
  · have hlong : secret.length > Config.blockLength := Nat.lt_of_not_le h
    rw [buildKey, if_pos hlong, if_neg h, storeKey_draws, preHash, hashSession_draws, clearKey_draws, Nat.add_assoc]

/-- The outer hash is a session over the pad block and the 20 bytes of InnerHash, two blocks with their padding. -/
theorem outerHash_draws (s : State) : (outerHash s).draws = s.draws + 3 := by
  rw [outerHash_eq, hashSession_draws]
  simp [xorPad]

/-- The draw counter that a command leaves (70_reset_and_hazards.md R231; log entry 2). -/
def drawsAfter (s : State) : Instr → Nat
  | .init => s.draws + 1
  | .write _ => s.draws + 1 + if s.off.toNat = 63 then 1 else 0
  | .result => s.draws + 1 + if s.off.toNat ≤ 55 then 1 else 2
  | .initHmac secret =>
    s.draws + 1 + if secret.length ≤ 64 then 1 else 1 + ((secret.length + 8) / 64 + 1) + 1
  | .resultHmac => s.draws + 2 + if s.off.toNat ≤ 55 then 3 else 4

theorem exec_draws {i : Instr} {s t : State} (h : exec i s = .next t) : t.draws = drawsAfter s i := by
  obtain ⟨rfl, rfl⟩ | ⟨b, rfl, -, rfl⟩ | ⟨rfl, rfl⟩ | ⟨secret, rfl, rfl⟩ | ⟨rfl, rfl⟩ := exec_next_state h
  · rfl
  · rw [setMode_draws, respond_draws, clobberDigest_draws, writeByte_draws, drawsAfter, Nat.add_right_comm]
  · rw [setMode_draws, resultEffect, respond_draws, finalize_draws_of_off, drawsAfter, Nat.add_right_comm]
  · rw [setMode_draws, clobberDigest_draws, keyedPass_draws, buildKey_draws, drawsAfter]
    split <;> omega
  · rw [setMode_draws, resultHmacEffect, respond_draws, outerHash_draws, innerFinalize_eq, finalize_draws_of_off,
      drawsAfter]
    split <;> omega

/-- Settles O27: each command's draws are those of the operations its effect is built of. -/
theorem compressionsPerCommand : Obligations.CompressionsPerCommand :=
  fun _ => ⟨fun _ => exec_draws, fun _ _ => exec_draws, fun _ => exec_draws, fun _ _ => exec_draws,
    fun _ => exec_draws⟩

end Sys2Proof.Machine
end
